-- ==== Sys2Proof/Word.lean ====
section
/-! DEFINITION. The word types of the VRC: the widths of spec/00_scope.md R8 and the four port words of
spec/30_encoding.md R90, R96, R98, R99. Bit 0 is the least significant bit of every word (R11). -/

namespace Sys2Proof

/-- `W_CODE` = 16 bits: a register code, `max_code`, a recorded value (R8). -/
abbrev Code := BitVec 16

/-- `W_FS` = 16 bits: a full scale, or a clamped request, in millivolts, unsigned (R8). -/
abbrev Millivolts := BitVec 16

/-- `W_V` = 32 bits: the requested voltage, two's complement millivolts; the requested range is as wide (R8, R94). -/
abbrev Operand := BitVec 32

/-- `W_PROD` = 32 bits: the product and the dividend of the converter, unsigned (R8). -/
abbrev Product := BitVec 32

/-- `W_CH` = 8 bits: the channel operand, unsigned (R8). -/
abbrev ChannelIndex := BitVec 8

/-- `W_ADDR` = 8 bits: the device address, opaque to the VRC (R8). -/
abbrev DevAddr := BitVec 8

/-- `W_REG` = 8 bits: a chip register address (R8). -/
abbrev ChipReg := BitVec 8

/-- `W_CMD` = 48 bits: a command word (R8, R90). -/
abbrev CommandWord := BitVec 48

/-- `W_RSP` = 20 bits: a response word (R8, R96). -/
abbrev ResponseWord := BitVec 20

/-- 34 bits: a transport request word (R98). -/
abbrev RequestWord := BitVec 34

/-- 9 bits: a transport answer word (R99). -/
abbrev AnswerWord := BitVec 9

end Sys2Proof
end

