-- ==== Sys2Proof/Config.lean ====
section
/-! DEFINITION. The configuration of the VRC: the model table MT (spec/10_state.md R30, R31), its reference
instance MT_REF (R34), the reset straps (R26, R27) and what is sampled from them. -/

namespace Sys2Proof

/-- `NMODELS` = 6 (spec/00_scope.md R7). -/
abbrev numModels : Nat := 6

/-- `BYTE` or `WORD`: the width of a transport write (R30 `val_width`, `range_width`). -/
inductive Width where
  | byte
  | word
deriving DecidableEq, Repr

/-- The recording kind of a row (R31): what a successful SETVOLT records in `RAW_CODE`. -/
inductive RecKind where
  | scaled
  | millivolt
deriving DecidableEq, Repr

/-- One row of the model table MT, field by field as R30 lists them. The four counts are `Nat`; the checks of R32
bound each of them by the width R30 gives it (log 18, DESIGN CHOICE, safe). -/
structure Row where
  /-- `res_bits`, 1 to 16 -/
  resBits : Nat
  /-- `max_code`, the source's `resolution_max_code` (R29) -/
  maxCode : Code
  /-- `n_channels`, 1 or 2 -/
  nChannels : Nat
  /-- `n_ranges`, 1 (single-range) or 2 (dual-range) -/
  nRanges : Nat
  /-- `fs_mv[0]` -/
  fs0 : Millivolts
  /-- `fs_mv[1]`, unused on a single-range row -/
  fs1 : Millivolts
  /-- `default_idx` -/
  defaultIdx : Fin 2
  /-- `val_reg[0]` -/
  valReg0 : ChipReg
  /-- `val_reg[1]`, unused on a one-channel row -/
  valReg1 : ChipReg
  /-- `val_width` -/
  valWidth : Width
  /-- `pack_shift` -/
  packShift : Nat
  /-- `range_reg`, unused on a single-range row -/
  rangeReg : ChipReg
  /-- `range_width`, unused on a single-range row -/
  rangeWidth : Width
  /-- `range_data[0]` -/
  rangeData0 : BitVec 16
  /-- `range_data[1]` -/
  rangeData1 : BitVec 16
  /-- `default_addr` -/
  defaultAddr : DevAddr
  /-- `rec_kind` -/
  recKind : RecKind
  /-- `zero_restores` -/
  zeroRestores : Bool
deriving DecidableEq, Repr

/-- `fs_mv[k]` (R30). -/
def Row.fsMv (r : Row) (k : Fin 2) : Millivolts := if k = 0 then r.fs0 else r.fs1

/-- `range_data[k]` (R30). -/
def Row.rangeData (r : Row) (k : Fin 2) : BitVec 16 := if k = 0 then r.rangeData0 else r.rangeData1

/-- `val_reg[ch]` (R30); used for channels below `n_channels` only. -/
def Row.valReg (r : Row) (ch : Nat) : ChipReg := if ch = 0 then r.valReg0 else r.valReg1

/-- The default full scale of a row, `fs_mv[default_idx]` (R42). -/
def Row.defaultFs (r : Row) : Millivolts := r.fsMv r.defaultIdx

/-- The allowed full scales of a row, `fs_mv[0 .. n_ranges-1]` (R37). -/
def Row.allowedFs (r : Row) : List Millivolts := [r.fs0, r.fs1].take r.nRanges

/-- The configuration `cfg`, sampled at reset (R26). -/
structure Cfg where
  /-- `cfg.MODEL`, the row index, legal values 0 to 5 -/
  model : BitVec 3
  /-- `cfg.DEV_ADDR` -/
  devAddr : DevAddr
  /-- `cfg.MT`, the model table -/
  mt : List Row
deriving DecidableEq, Repr

/-- The reset straps `MODEL[2:0]`, `ADDR_OVR_EN`, `ADDR_OVR[7:0]` (R26). -/
structure Straps where
  model : BitVec 3
  addrOvrEn : Bool
  addrOvr : DevAddr
deriving DecidableEq, Repr

/-- `cfg.DEV_ADDR` as the straps and the selected row give it (R27). -/
def Straps.devAddr (st : Straps) (r : Row) : DevAddr := if st.addrOvrEn then st.addrOvr else r.defaultAddr

/-- Row 0 of MT_REF (R34), tag MA. An entry the table calls "unused" is 0 or BYTE here (log 16, DESIGN CHOICE). -/
def rowMA : Row :=
  { resBits := 12, maxCode := 4095, nChannels := 2, nRanges := 1, fs0 := 2500, fs1 := 0, defaultIdx := 0,
    valReg0 := 0x02, valReg1 := 0x04, valWidth := .word, packShift := 4, rangeReg := 0, rangeWidth := .byte,
    rangeData0 := 0, rangeData1 := 0, defaultAddr := 0x58, recKind := .millivolt, zeroRestores := false }

/-- Row 1 of MT_REF (R34), tag MB. -/
def rowMB : Row :=
  { resBits := 12, maxCode := 4095, nChannels := 2, nRanges := 2, fs0 := 5000, fs1 := 10000, defaultIdx := 0,
    valReg0 := 0x02, valReg1 := 0x04, valWidth := .word, packShift := 4, rangeReg := 0x01, rangeWidth := .byte,
    rangeData0 := 0x00, rangeData1 := 0x11, defaultAddr := 0x58, recKind := .millivolt, zeroRestores := false }

/-- Row 2 of MT_REF (R34), tag MC, the current-output variant. -/
def rowMC : Row :=
  { resBits := 8, maxCode := 255, nChannels := 2, nRanges := 2, fs0 := 5000, fs1 := 10000, defaultIdx := 0,
    valReg0 := 0x02, valReg1 := 0x04, valWidth := .byte, packShift := 0, rangeReg := 0x01, rangeWidth := .byte,
    rangeData0 := 0x00, rangeData1 := 0x11, defaultAddr := 0x58, recKind := .millivolt, zeroRestores := true }

/-- Row 3 of MT_REF (R34), tag MD. -/
def rowMD : Row :=
  { resBits := 16, maxCode := 65535, nChannels := 1, nRanges := 2, fs0 := 5000, fs1 := 10000, defaultIdx := 0,
    valReg0 := 0x02, valReg1 := 0, valWidth := .word, packShift := 0, rangeReg := 0x01, rangeWidth := .byte,
    rangeData0 := 0x00, rangeData1 := 0x11, defaultAddr := 0x58, recKind := .scaled, zeroRestores := false }

/-- Row 4 of MT_REF (R34), tag ME. -/
def rowME : Row :=
  { resBits := 12, maxCode := 4095, nChannels := 2, nRanges := 2, fs0 := 5000, fs1 := 10000, defaultIdx := 0,
    valReg0 := 0x02, valReg1 := 0x04, valWidth := .word, packShift := 4, rangeReg := 0x01, rangeWidth := .byte,
    rangeData0 := 0x00, rangeData1 := 0x11, defaultAddr := 0x58, recKind := .scaled, zeroRestores := false }

/-- Row 5 of MT_REF (R34), tag MF. -/
def rowMF : Row :=
  { resBits := 16, maxCode := 65535, nChannels := 1, nRanges := 1, fs0 := 2500, fs1 := 0, defaultIdx := 0,
    valReg0 := 0x02, valReg1 := 0, valWidth := .word, packShift := 0, rangeReg := 0, rangeWidth := .byte,
    rangeData0 := 0, rangeData1 := 0, defaultAddr := 0x58, recKind := .scaled, zeroRestores := false }

/-- The reference table MT_REF (R34). No definition of the machine but `Machine.State.reset` names it: every other
rule is over any well-formed table (spec/00_scope.md R9). -/
def mtRef : List Row := [rowMA, rowMB, rowMC, rowMD, rowME, rowMF]

end Sys2Proof
end

