-- ==== Sys2Proof/Syntax.lean ====
section
/-! DEFINITION. The commands of the VRC (spec/30_encoding.md R92), its assembler text (R100, R101), and the contents of
the response word (R96, R97), the transport request (R64, R98) and the transport answer (R64, R99). -/

namespace Sys2Proof

/-- The five commands, one constructor per row of spec/opcode_table.json. Every operand has exactly the width of its
field (R91), so every term is a command: an operand out of range is an assembler error, not a command (R100). -/
inductive Instr where
  /-- BEGIN: the readiness check (spec/40_readiness.md R120) -/
  | begin
  /-- SETRANGE: `req`, an unsigned count of millivolts (spec/41_range.md R130) -/
  | setrange (req : Operand)
  /-- SETVOLT: `v`, a two's-complement count of millivolts (spec/42_voltage.md R150) -/
  | setvolt (ch : ChannelIndex) (v : Operand)
  /-- RDCODE (spec/43_accessors.md R170) -/
  | rdcode (ch : ChannelIndex)
  /-- RDFS (spec/43_accessors.md R171) -/
  | rdfs (ch : ChannelIndex)
deriving DecidableEq, Repr

/-- A decimal literal in volts of R101: `mantissa / 10 ^ places`, so `0.167` is `⟨167, 3⟩` (log 19, DESIGN CHOICE). -/
structure Volts where
  mantissa : Int
  places : Nat
deriving DecidableEq, Repr

/-- A line of assembler text: the five commands (R100) and the two pseudo-instructions (R101). Its numbers are not
bounded; `Asm.wf` bounds them. -/
inductive Asm where
  | begin
  | setrange (mv : Nat)
  | setvolt (ch : Nat) (mv : Int)
  | rdcode (ch : Nat)
  | rdfs (ch : Nat)
  | setv (ch : Nat) (volts : Volts)
  | setrangev (volts : Volts)
deriving DecidableEq, Repr

/-- The five status values that are ever produced (spec/60_exceptions.md R181). -/
inductive Status where
  | ok
  | channelError
  | configurationError
  | transportError
  | illegalCommand
deriving DecidableEq, Repr

/-- The contents of a response word (R96). -/
structure Response where
  status : Status
  data : BitVec 16
deriving DecidableEq, Repr

/-- A transport request (spec/20_memory.md R64). -/
inductive Request where
  | readByte (addr : DevAddr)
  | writeByte (addr : DevAddr) (reg : ChipReg) (data : BitVec 8)
  | writeWord (addr : DevAddr) (reg : ChipReg) (data : BitVec 16)
deriving DecidableEq, Repr

/-- A transport answer `{ok, byte}` (spec/20_memory.md R64, R66). -/
structure Answer where
  ok : Bool
  byte : BitVec 8
deriving DecidableEq, Repr

end Sys2Proof
end

