-- ==== Sys2Proof/WellFormed.lean ====
section
/-! DEFINITION. What is well formed: the checks WF1 to WF9 of the model table (spec/10_state.md R32), a legal
configuration and legal straps (R33), and the operand bounds of assembler text (spec/30_encoding.md R100, R101).
A command of type `Instr` needs no check: its operands have the widths of their fields. -/

namespace Sys2Proof

/-- WF2: `n_channels` is 1 or 2. -/
def Row.wf2 (r : Row) : Bool := r.nChannels == 1 || r.nChannels == 2

/-- WF3: `n_ranges` is 1 or 2, and when 2 the two full scales differ. -/
def Row.wf3 (r : Row) : Bool := r.nRanges == 1 || (r.nRanges == 2 && r.fs0 != r.fs1)

/-- WF4: `default_idx < n_ranges`. -/
def Row.wf4 (r : Row) : Bool := decide (r.defaultIdx.val < r.nRanges)

/-- WF5: `1 <= res_bits <= 16` and `max_code = 2^res_bits - 1`. -/
def Row.wf5 (r : Row) : Bool :=
  decide (1 ≤ r.resBits ∧ r.resBits ≤ 16) && r.maxCode.toNat == 2 ^ r.resBits - 1

/-- WF6: every used full scale is at least 1 (at most 65535 by its width). -/
def Row.wf6 (r : Row) : Bool := r.allowedFs.all (fun f => f != 0)

/-- WF7: `max_code << pack_shift` fits the width of the value write. -/
def Row.wf7 (r : Row) : Bool :=
  match r.valWidth with
  | .byte => decide (r.maxCode.toNat * 2 ^ r.packShift < 2 ^ 8)
  | .word => decide (r.maxCode.toNat * 2 ^ r.packShift < 2 ^ 16)

/-- WF8: on a dual-range row whose range write is a byte, both range encodings fit a byte. -/
def Row.wf8 (r : Row) : Bool :=
  !(r.nRanges == 2 && r.rangeWidth == .byte)
    || (decide (r.rangeData0.toNat < 256) && decide (r.rangeData1.toNat < 256))

/-- WF9: on a two-channel row the two value registers differ. -/
def Row.wf9 (r : Row) : Bool := r.nChannels != 2 || r.valReg0 != r.valReg1

/-- A row passes WF2 to WF9. -/
def Row.wf (r : Row) : Bool :=
  r.wf2 && r.wf3 && r.wf4 && r.wf5 && r.wf6 && r.wf7 && r.wf8 && r.wf9

/-- A table is well formed: WF1 (six rows), and every row passes WF2 to WF9 (R32). -/
def Table.wf (mt : List Row) : Bool := mt.length == numModels && mt.all Row.wf

/-- A configuration is legal: a well-formed table and a `MODEL` of 0 to 5 (R32, R33). -/
def Cfg.legal (c : Cfg) : Bool := Table.wf c.mt && decide (c.model.toNat < numModels)

/-- A strap setting is legal: `MODEL` is 0 to 5 (R33; spec/00_scope.md R19). -/
def Straps.legal (st : Straps) : Bool := decide (st.model.toNat < numModels)

/-- `<ch>` is `0 .. 255` (R100). -/
def chOperandOk (ch : Nat) : Bool := decide (ch ≤ 255)

/-- `<mv>` of SETRANGE is an unsigned integer that fits 32 bits (R100). -/
def rangeOperandOk (mv : Int) : Bool := decide (0 ≤ mv ∧ mv < 2 ^ 32)

/-- `<mv>` of SETVOLT is a signed integer that fits 32 bits (R100). -/
def voltOperandOk (mv : Int) : Bool := decide (-(2 ^ 31) ≤ mv ∧ mv < 2 ^ 31)

/-- A decimal literal in volts has at most three digits after the point (R101). -/
def Volts.wf (x : Volts) : Bool := decide (x.places ≤ 3)

/-- `<volts * 1000>` of a literal with at most three places, an exact integer (R101). -/
def Volts.millivolts (x : Volts) : Int := x.mantissa * 10 ^ (3 - x.places)

/-- The operand checks of assembler text: a line that fails one is an assembler error, not a command (R100, R101). -/
def Asm.wf : Asm → Bool
  | .begin => true
  | .setrange mv => rangeOperandOk mv
  | .setvolt ch mv => chOperandOk ch && voltOperandOk mv
  | .rdcode ch => chOperandOk ch
  | .rdfs ch => chOperandOk ch
  | .setv ch x => chOperandOk ch && x.wf && voltOperandOk x.millivolts
  | .setrangev x => x.wf && rangeOperandOk x.millivolts

end Sys2Proof
end

