-- ==== Sys2Proof/Decode.lean ====
section
/-! DEFINITION. The encodings of spec/30_encoding.md: the decoder and the encoder of the 48-bit command word (R90 to
R95), the response word (R96, R97), the transport words (R98, R99) and the assembler (R100, R101). -/

namespace Sys2Proof

/-! ### Fields of the command word (R91) -/

/-- `OP` = `CMD[47:44]`. -/
def opField (w : CommandWord) : BitVec 4 := w.extractLsb' 44 4

/-- `RSV` = `CMD[43:40]`. -/
def rsvField (w : CommandWord) : BitVec 4 := w.extractLsb' 40 4

/-- `CH` = `CMD[39:32]`. -/
def chField (w : CommandWord) : ChannelIndex := w.extractLsb' 32 8

/-- `ARG` = `CMD[31:0]`. -/
def argField (w : CommandWord) : Operand := w.extractLsb' 0 32

/-- The decoder (R92, R95), total on the `2^48` words: `none` is an illegal word. -/
def decode (w : CommandWord) : Option Instr :=
  if rsvField w ≠ 0 then none
  else if opField w = 0x1 then
    if chField w = 0 ∧ argField w = 0 then some .begin else none
  else if opField w = 0x2 then
    if chField w = 0 then some (.setrange (argField w)) else none
  else if opField w = 0x3 then some (.setvolt (chField w) (argField w))
  else if opField w = 0x4 then
    if argField w = 0 then some (.rdcode (chField w)) else none
  else if opField w = 0x5 then
    if argField w = 0 then some (.rdfs (chField w)) else none
  else none

/-- `O R CC AAAAAAAA`: a command word put together from its fields (R90, R91). -/
def commandWord (op rsv : BitVec 4) (ch : ChannelIndex) (arg : Operand) : CommandWord := op ++ rsv ++ ch ++ arg

/-- The encoder: the word of a command (R91, R92, R100). -/
def encode : Instr → CommandWord
  | .begin => commandWord 0x1 0 0 0
  | .setrange req => commandWord 0x2 0 0 req
  | .setvolt ch v => commandWord 0x3 0 ch v
  | .rdcode ch => commandWord 0x4 0 ch 0
  | .rdfs ch => commandWord 0x5 0 ch 0

/-- A row of the match and mask table (R93). -/
structure OpcodeRow where
  pattern : CommandWord
  mask : CommandWord
deriving DecidableEq, Repr

/-- The row of R93 that a command belongs to. -/
def opcodeRow : Instr → OpcodeRow
  | .begin => ⟨0x100000000000, 0xFFFFFFFFFFFF⟩
  | .setrange _ => ⟨0x200000000000, 0xFFFF00000000⟩
  | .setvolt _ _ => ⟨0x300000000000, 0xFF0000000000⟩
  | .rdcode _ => ⟨0x400000000000, 0xFF00FFFFFFFF⟩
  | .rdfs _ => ⟨0x500000000000, 0xFF00FFFFFFFF⟩

/-- The five rows of R93. -/
def opcodeTable : List OpcodeRow :=
  [opcodeRow .begin, opcodeRow (.setrange 0), opcodeRow (.setvolt 0 0), opcodeRow (.rdcode 0), opcodeRow (.rdfs 0)]

/-- "a word `w` is that command if and only if `(w AND mask) = match`" (R93). -/
def OpcodeRow.accepts (r : OpcodeRow) (w : CommandWord) : Bool := w &&& r.mask == r.pattern

/-- The instruction the decoder reads from an instruction of the opcode table: the command word is one 48-bit word
(R90), numbered as the table numbers it. -/
def decodeTableWord (nbits w : Nat) : Option Instr :=
  if nbits ≤ 48 then decode (BitVec.ofNat 48 (w % 2 ^ nbits)) else none

/-! ### Response word (R96, R97) -/

/-- The number of a status (spec/60_exceptions.md R181). -/
def Status.code : Status → BitVec 4
  | .ok => 0
  | .channelError => 1
  | .configurationError => 2
  | .transportError => 3
  | .illegalCommand => 4

/-- `RSP[19:0] = STATUS[3:0] ++ DATA[15:0]` (R96). -/
def Response.word (r : Response) : ResponseWord := r.status.code ++ r.data

/-! ### Transport words (R98, R99) -/

/-- `TREQ[33:0]` = `KIND` ++ `ADDR` ++ `REG` ++ `DATA` (R98). -/
def requestWord (kind : BitVec 2) (addr : DevAddr) (reg : ChipReg) (data : BitVec 16) : RequestWord :=
  kind ++ addr ++ reg ++ data

/-- The word of a transport request (R98): kind 1, 2 or 3; the byte zero-extended. -/
def Request.word : Request → RequestWord
  | .readByte addr => requestWord 1 addr 0 0
  | .writeByte addr reg data => requestWord 2 addr reg (data.setWidth 16)
  | .writeWord addr reg data => requestWord 3 addr reg data

/-- `KIND` = `TREQ[33:32]` (R98). -/
def kindField (w : RequestWord) : BitVec 2 := w.extractLsb' 32 2

/-- `ADDR` = `TREQ[31:24]` (R98). -/
def addrField (w : RequestWord) : DevAddr := w.extractLsb' 24 8

/-- `REG` = `TREQ[23:16]` (R98). -/
def regField (w : RequestWord) : ChipReg := w.extractLsb' 16 8

/-- `DATA` = `TREQ[15:0]` (R98). -/
def dataField (w : RequestWord) : BitVec 16 := w.extractLsb' 0 16

/-- The answer a `TRSP` word carries: `OK = TRSP[8]`, `BYTE = TRSP[7:0]` (R99). -/
def Answer.ofWord (w : AnswerWord) : Answer := { ok := w.getLsbD 8, byte := w.extractLsb' 0 8 }

/-- The `TRSP` word of an answer (R99). -/
def Answer.word (a : Answer) : AnswerWord := BitVec.ofBool a.ok ++ a.byte

/-! ### Assembler (R100, R101) -/

/-- The command a line of assembler text stands for, the pseudo-instructions expanded. -/
def Asm.expand : Asm → Instr
  | .begin => .begin
  | .setrange mv => .setrange (BitVec.ofNat 32 mv)
  | .setvolt ch mv => .setvolt (BitVec.ofNat 8 ch) (BitVec.ofInt 32 mv)
  | .rdcode ch => .rdcode (BitVec.ofNat 8 ch)
  | .rdfs ch => .rdfs (BitVec.ofNat 8 ch)
  | .setv ch x => .setvolt (BitVec.ofNat 8 ch) (BitVec.ofInt 32 x.millivolts)
  | .setrangev x => .setrange (BitVec.ofInt 32 x.millivolts)

/-- The assembler: `none` is an assembler error, not a command. -/
def assemble (a : Asm) : Option Instr := if a.wf then some a.expand else none

end Sys2Proof
end

