-- ==== Sys2Proof/Machine/State.lean ====
section
/-! DEFINITION. The state of the VRC as plain data (spec/10_state.md R20 to R24, R41), the configuration sampled at
reset (R26), the ports and the moves of the host and the transport (spec/00_scope.md R18, R19), the state after reset
(R42), and the ways a step can stop. -/

namespace Sys2Proof.Machine

/-- An entry of the per-channel state file (R22). -/
structure Channel where
  /-- `CH[i].RAW_CODE` (R23) -/
  rawCode : Code
  /-- `CH[i].FS_SNAP` (R24) -/
  fsSnap : Millivolts
deriving DecidableEq, Repr

/-- `PHASE` (R41). -/
inductive Phase where
  | idle
  | wait
deriving DecidableEq, Repr

/-- `PEND`, the update latched while a transport request is outstanding (R41): one constructor per `kind`, with the
fields that kind uses (spec/70_reset_and_hazards.md R216). The spec's other fields of a kind are never read and do not
exist here (log 4, DESIGN CHOICE, safe). -/
inductive Pend where
  /-- `P_BEGIN` -/
  | begin
  /-- `P_RANGE` with `new_fs` -/
  | range (newFs : Millivolts)
  /-- `P_VOLT` with `ch`, `new_code`, `new_snap` -/
  | volt (ch : ChannelIndex) (newCode : Code) (newSnap : Millivolts)
deriving DecidableEq, Repr

/-- A move of the host or of the transport (spec/00_scope.md R18, R19). -/
inductive EnvMove where
  /-- The host presents a command word. -/
  | present (w : CommandWord)
  /-- The transport answers the request that is outstanding. -/
  | answer (w : AnswerWord)
  /-- The transport answers a request that a reset abandoned (spec/70_reset_and_hazards.md R212; log 9). -/
  | lateAnswer (w : AnswerWord)
  /-- The host applies reset with these straps. -/
  | reset (straps : Straps)
deriving DecidableEq, Repr

/-- The machine. The first four fields are the complete state of the VRC (R20); `cfg` is the configuration sampled at
reset (R26; here because a step takes no other argument, log 1); the last six are the model's own: what stands at the
ports (log 5), the records of what was given there, and where the current run begins in them (log 17). -/
structure State where
  /-- `CUR_FS`, the active full scale (R21) -/
  curFs : Millivolts
  /-- `CH[0 .. N-1]` (R22) -/
  ch : List Channel
  /-- `PHASE` (R41) -/
  phase : Phase
  /-- `PEND` (R41), meaningful only while `PHASE` is `WAIT` -/
  pend : Pend
  /-- `cfg` (R26) -/
  cfg : Cfg
  /-- the word the host presents and the VRC has not accepted yet (spec/70_reset_and_hazards.md R217) -/
  cmdPort : Option CommandWord
  /-- the moves the host and the transport make next, oldest first -/
  env : List EnvMove
  /-- the response words given so far, oldest first (spec/00_scope.md R19) -/
  rsp : List ResponseWord
  /-- the transport request words issued so far, failed ones included, oldest first (spec/00_scope.md R19) -/
  treq : List RequestWord
  /-- how many responses had been given when the current run began, at the last reset (spec/00_scope.md R19) -/
  rspStart : Nat
  /-- how many requests had been issued when the current run began (spec/00_scope.md R19) -/
  treqStart : Nat
deriving DecidableEq, Repr

/-- How the machine stops with a fault: never. The VRC has no trap (spec/60_exceptions.md, opening): every error is a
response word with a status that is not 0 (R181) and the machine goes on (R187, R188), so no constructor is raised. -/
inductive Fault where
deriving DecidableEq, Repr

/-- The inputs to which the spec gives no behaviour, and the marker of an instruction without a meaning. -/
inductive Refusal where
  /-- Raised by `exec`'s arms for an instruction that has no meaning yet: none. Safe. -/
  | notModelled (mnemonic : String)
  /-- Raised when a command word is taken, or reset is applied, under a `MODEL` of 6 or 7 or an ill-formed table: "an
  ill-formed table is refused, it is not given a meaning" (R32), "A model of the VRC refuses it" (R33). Safe. -/
  | illegalConfiguration
  /-- Raised when the host presents a word while another one is held: "what happens when two words are driven at once
  is not defined and a model refuses it" (spec/70_reset_and_hazards.md R219). Safe. -/
  | twoCommandsAtOnce
deriving DecidableEq, Repr

/-- The machine right after a reset that sampled `cfg`, whose selected row is `row` (R42), with nothing at its ports.
`PEND` is unspecified after reset and never read while `PHASE` is `IDLE`: the value `begin` is the model's (log 3,
DESIGN CHOICE, unsafe). -/
def State.resetWith (cfg : Cfg) (row : Row) : State where
  curFs := row.defaultFs
  ch := List.replicate row.nChannels { rawCode := 0, fsSnap := row.defaultFs }
  phase := .idle
  pend := .begin
  cfg := cfg
  cmdPort := none
  env := []
  rsp := []
  treq := []
  rspStart := 0
  treqStart := 0

/-- The straps `State.reset` samples: `MODEL` = 0, no override (log 2, DESIGN CHOICE, unsafe). -/
def resetStraps : Straps := { model := 0, addrOvrEn := false, addrOvr := 0 }

/-- The machine right after reset (R42, R210), with the reference table MT_REF (R34) and the straps of log 2. -/
def State.reset : State :=
  State.resetWith { model := resetStraps.model, devAddr := resetStraps.devAddr rowMA, mt := mtRef } rowMA

end Sys2Proof.Machine
end

