-- ==== Sys2Proof/Machine/Ops.lean ====
section
/-! DEFINITION. The operations every command shares: the selected row, responses and errors, transport requests, the
accept step and the complete step of spec/70_reset_and_hazards.md R216, reset (R210 to R212), and the moves of the host
and the transport (spec/00_scope.md R18, R19). -/

namespace Sys2Proof.Machine

/-! ### Configuration -/

/-- `row = MT[cfg.MODEL]`, for a legal configuration only (spec/10_state.md R32, R33). -/
def selectedRow (c : Cfg) : Option Row := if c.legal then c.mt[c.model.toNat]? else none

/-! ### Responses and errors (spec/00_scope.md R14) -/

/-- `respond(status, data)`: gives the response word (spec/30_encoding.md R96) and leaves or returns `PHASE` to `IDLE`
(spec/70_reset_and_hazards.md R216). -/
def respond (st : Status) (data : BitVec 16) (s : State) : State :=
  { s with phase := .idle, rsp := s.rsp ++ [Response.word { status := st, data := data }] }

/-- `raise <Error>`: the response of an error, which carries data 0 and writes no state (spec/60_exceptions.md R187). -/
def raiseError (e : Status) (s : State) : State := respond e 0 s

/-! ### Transport requests -/

/-- Issue a transport request and wait, with `p` latched in `PEND` (spec/70_reset_and_hazards.md R216, step A). -/
def issue (r : Request) (p : Pend) (s : State) : State :=
  { s with phase := .wait, pend := p, treq := s.treq ++ [r.word] }

/-- `TWriteB` or `TWriteW` (spec/00_scope.md R13) by the width of the table: a byte write carries `data[7:0]`. -/
def writeRequest (width : Width) (addr : DevAddr) (reg : ChipReg) (data : BitVec 16) : Request :=
  match width with
  | .byte => .writeByte addr reg (data.setWidth 8)
  | .word => .writeWord addr reg data

/-! ### The channel file (spec/10_state.md R22) -/

/-- `CH[i]`; an index without an entry names none. -/
def readChannel (i : Nat) (s : State) : Option Channel := s.ch[i]?

/-- `CH[i].RAW_CODE <- code || CH[i].FS_SNAP <- snap`, both fields together (spec/20_memory.md R71). -/
def writeChannel (i : Nat) (c : Channel) (s : State) : State := { s with ch := s.ch.set i c }

/-! ### Step B, complete (spec/70_reset_and_hazards.md R216) -/

/-- Commit what `PEND` latched. -/
def commit (p : Pend) (s : State) : State :=
  match p with
  | .begin => s
  | .range newFs => { s with curFs := newFs }
  | .volt ch newCode newSnap => writeChannel ch.toNat { rawCode := newCode, fsSnap := newSnap } s

/-- Step B: a failed request commits nothing and answers `TransportError`; the answer's byte is never used
(spec/40_readiness.md R121). -/
def complete (a : Answer) (s : State) : State :=
  if a.ok then respond .ok 0 (commit s.pend s) else raiseError .transportError s

/-- Step B at once, when the transport's answer is the next move of the environment: then step A and step B together are
the big step of spec/00_scope.md R15. Otherwise the state stays as step A left it (log 6). -/
def settle (s : State) : State :=
  match s.phase, s.env with
  | .wait, .answer w :: rest => complete (Answer.ofWord w) { s with env := rest }
  | _, _ => s

/-! ### Step A, accept (spec/70_reset_and_hazards.md R216) -/

/-- Take the word from the command port. -/
def takeWord (s : State) : State := { s with cmdPort := none }

/-- Run `stepA`, a command up to its transport call, under the selected row. While `PHASE` is `WAIT` no command is
accepted and the word is held (spec/70_reset_and_hazards.md R217); an illegal configuration has no behaviour
(spec/10_state.md R32, R33). -/
def accept (stepA : Row → State → State) (s : State) : Host.Outcome State Fault Refusal :=
  match s.phase with
  | .wait => .next s
  | .idle =>
    match selectedRow s.cfg with
    | none => .refused .illegalConfiguration
    | some row => .next (settle (stepA row (takeWord s)))

/-- A word that is no command: `IllegalCommand`, no state write, no request (spec/30_encoding.md R95,
spec/60_exceptions.md R185). -/
def acceptIllegal (_ : Row) (s : State) : State := raiseError .illegalCommand s

/-- The VRC takes a word that does not decode. -/
def execIllegal (s : State) : Host.Outcome State Fault Refusal := accept acceptIllegal s

/-- The word the VRC takes next: in `IDLE` the one at the command port, in `WAIT` none
(spec/70_reset_and_hazards.md R216, R217). -/
def fetch (s : State) : Option CommandWord :=
  match s.phase with
  | .idle => s.cmdPort
  | .wait => none

/-! ### Reset (spec/70_reset_and_hazards.md R210 to R212) -/

/-- What reset samples: the straps' model and device address, and the same table (R26, R27, R35; log 10); nothing when
the straps or the table are not legal (R33). -/
def sampleStraps (mt : List Row) (st : Straps) : Option (Cfg × Row) :=
  if Table.wf mt && st.legal then
    (mt[st.model.toNat]?).map (fun row => ({ model := st.model, devAddr := st.devAddr row, mt := mt }, row))
  else none

/-- The reset state `t` with the moves to come and the records of `s`, in which a new run begins now
(spec/00_scope.md R19). -/
def beginRun (s t : State) : State :=
  { t with env := s.env, rsp := s.rsp, treq := s.treq, rspStart := s.rsp.length, treqStart := s.treq.length }

/-- Reset at any time, during `WAIT` too: the pending update is dropped and no response is given (R212); no transport
request is issued (R211). A word held at the command port goes with it: the host may present it again (log 8). A new run
begins here (spec/00_scope.md R19): what the records hold so far belongs to earlier runs. -/
def applyReset (st : Straps) (s : State) : Host.Outcome State Fault Refusal :=
  match sampleStraps s.cfg.mt st with
  | none => .refused .illegalConfiguration
  | some (cfg, row) => .next (beginRun s (State.resetWith cfg row))

/-! ### The moves of the host and the transport -/

/-- The host presents a word; a second one beside a held one is refused (spec/70_reset_and_hazards.md R219). -/
def presentWord (w : CommandWord) (s : State) : Host.Outcome State Fault Refusal :=
  match s.cmdPort with
  | none => .next { s with cmdPort := some w }
  | some _ => .refused .twoCommandsAtOnce

/-- The transport answers: step B in `WAIT`; an answer that arrives when none is awaited is ignored
(spec/70_reset_and_hazards.md R212). -/
def takeAnswer (w : AnswerWord) (s : State) : State :=
  match s.phase with
  | .wait => complete (Answer.ofWord w) s
  | .idle => s

/-- One move of the host or the transport. -/
def envMove (m : EnvMove) (s : State) : Host.Outcome State Fault Refusal :=
  match m with
  | .present w => presentWord w s
  | .answer w => .next (takeAnswer w s)
  | .lateAnswer _ => .next s
  | .reset st => applyReset st s

/-- The VRC takes no word: the environment moves, or, when it has no move left, nothing happens: the VRC stays in `IDLE`
without a word, or in `WAIT` "for ever" (spec/70_reset_and_hazards.md R218; log 7). -/
def envStep (s : State) : Host.Outcome State Fault Refusal :=
  match s.env with
  | [] => .next s
  | m :: rest => envMove m { s with env := rest }

end Sys2Proof.Machine
end

