-- ==== Sys2Proof/Machine/Flags.lean ====
section
/-! DEFINITION. The VRC has no condition flags (spec/10_state.md R40). The only condition bits it computes are the two
clamp indicators `lo` and `hi` of spec/42_voltage.md R140, which live inside one SETVOLT and reach no register. -/

namespace Sys2Proof.Machine

/-- `sint32(b)`: 32 bits read as signed (spec/00_scope.md R11). -/
def sint32 (v : Operand) : Int := v.toInt

/-- `lo = (V < 0)`, a signed comparison (R140). -/
def clampLo (v : Operand) : Bool := decide (sint32 v < 0)

/-- `hi = (not lo) and (V > zext_32(fs))` (R140). -/
def clampHi (v : Operand) (fs : Millivolts) : Bool := !clampLo v && decide ((fs.toNat : Int) < sint32 v)

end Sys2Proof.Machine
end

