-- ==== Sys2Proof/Machine/Operands.lean ====
section
/-! DEFINITION. The two operand checks of the VRC: the channel bound (spec/20_memory.md R61) and the range match
(spec/41_range.md R130). -/

namespace Sys2Proof.Machine

/-- The channel operand names an entry of the selected model: `ch < row.n_channels` (spec/10_state.md R39). -/
def channelOk (row : Row) (ch : ChannelIndex) : Bool := decide (ch.toNat < row.nChannels)

/-- Which allowed full scale a request is: none on a single-range row, whatever the request; on a dual-range row the
comparison is on all 32 bits (R130; spec/30_encoding.md R94). -/
def matchRange (row : Row) (req : Operand) : Option (Fin 2) :=
  if row.nRanges = 1 then none
  else if req = (row.fsMv 0).setWidth 32 then some 0
  else if req = (row.fsMv 1).setWidth 32 then some 1
  else none

end Sys2Proof.Machine
end

