-- ==== Sys2Proof/Machine/Accessors.lean ====
section
/-! DEFINITION. RDCODE and RDFS, the read accessors (spec/43_accessors.md R170, R171). -/

namespace Sys2Proof.Machine

/-- The channel entry an accessor reads: `ChannelError` for an index at or above `row.n_channels` (R170, R171), and for
an index without an entry (spec/10_state.md R22), which in a reached state is the same (log 14). -/
def respondField (field : Channel → BitVec 16) (ch : ChannelIndex) (row : Row) (s : State) : State :=
  if channelOk row ch then
    match readChannel ch.toNat s with
    | some c => respond .ok (field c) s
    | none => raiseError .channelError s
  else raiseError .channelError s

/-- RDCODE (R170): no transport request, no state write. -/
def execRdcode (ch : ChannelIndex) (s : State) : Host.Outcome State Fault Refusal :=
  accept (respondField Channel.rawCode ch) s

/-- RDFS (R171): no transport request, no state write. -/
def execRdfs (ch : ChannelIndex) (s : State) : Host.Outcome State Fault Refusal :=
  accept (respondField Channel.fsSnap ch) s

end Sys2Proof.Machine
end

