-- ==== Sys2Proof/Machine/Converter.lean ====
section
/-! DEFINITION. SETVOLT and its datapath: clamp, scale, pack and the two recording functions (spec/42_voltage.md R140 to
R147, R150). -/

namespace Sys2Proof.Machine

/-- `clamp_mv(V, fs)`: saturate the request into `[0, fs]`, on the whole 32-bit signed operand (R140). -/
def clampMv (v : Operand) (fs : Millivolts) : Millivolts :=
  if clampLo v then 0 else if clampHi v fs then fs else v.setWidth 16

/-- `num = zext_32(mvc) * zext_32(maxc)` on 32 unsigned bits (R141). -/
def scaleNum (mvc : Millivolts) (maxc : Code) : Product := mvc.setWidth 32 * maxc.setWidth 32

/-- `q = (num + half) udiv zext_32(fs)` with `half = zext_32(fs >> 1)` (R141): round half up (R142). For `fs = 0`, which
no run reaches (spec/10_state.md R37), the quotient is 0 (log 15). -/
def scaleQuotient (mvc : Millivolts) (maxc : Code) (fs : Millivolts) : Product :=
  (scaleNum mvc maxc + (fs >>> 1).setWidth 32) / fs.setWidth 32

/-- `scale(mvc, maxc, fs)`: the quotient, saturated at `maxc` (R141; the saturation branch is kept, R143). -/
def scale (mvc : Millivolts) (maxc : Code) (fs : Millivolts) : Code :=
  let q := scaleQuotient mvc maxc fs
  if q ≤ maxc.setWidth 32 then q.setWidth 16 else maxc

/-- `pack(code, row)`: the code shifted to its place in the word, or in the byte, that is written (R144). -/
def pack (code : Code) (row : Row) : BitVec 16 :=
  match row.valWidth with
  | .word => code <<< row.packShift
  | .byte => ((code <<< row.packShift).setWidth 8).setWidth 16

/-- `rec(row, mvc, code)`: the value recorded in `RAW_CODE` (R145). -/
def recorded (row : Row) (mvc : Millivolts) (code : Code) : Code :=
  match row.recKind with
  | .scaled => code
  | .millivolt => mvc

/-- `snap_new(row, mvc, fs)`: the value recorded in `FS_SNAP`, with the zero-write rule of the current-output variant
(R146). -/
def newSnap (row : Row) (mvc : Millivolts) (fs : Millivolts) : Millivolts :=
  if row.zeroRestores = true ∧ mvc = 0 then row.defaultFs else fs

/-- The code SETVOLT sends for the request `v` under the full scale `fs` (R150, steps 2 and 3). -/
def sentCode (row : Row) (v : Operand) (fs : Millivolts) : Code := scale (clampMv v fs) row.maxCode fs

/-- The one write SETVOLT issues (R150, step 4). -/
def voltRequest (row : Row) (addr : DevAddr) (ch : ChannelIndex) (v : Operand) (fs : Millivolts) : Request :=
  writeRequest row.valWidth addr (row.valReg ch.toNat) (pack (sentCode row v fs) row)

/-- What SETVOLT records in its channel on success (R150, step 5). -/
def voltRecord (row : Row) (v : Operand) (fs : Millivolts) : Channel :=
  { rawCode := recorded row (clampMv v fs) (sentCode row v fs), fsSnap := newSnap row (clampMv v fs) fs }

/-- SETVOLT up to its transport call: `ChannelError` without a request, or one write of the packed code with both values
to record latched (R150; spec/70_reset_and_hazards.md R216). -/
def acceptSetvolt (ch : ChannelIndex) (v : Operand) (row : Row) (s : State) : State :=
  if channelOk row ch then
    let r := voltRecord row v s.curFs
    issue (voltRequest row s.cfg.devAddr ch v s.curFs) (.volt ch r.rawCode r.fsSnap) s
  else raiseError .channelError s

/-- SETVOLT (R150). -/
def execSetvolt (ch : ChannelIndex) (v : Operand) (s : State) : Host.Outcome State Fault Refusal :=
  accept (acceptSetvolt ch v) s

end Sys2Proof.Machine
end

