-- ==== Sys2Proof/Machine/Range.lean ====
section
/-! DEFINITION. SETRANGE, the output-range validator (spec/41_range.md R130). -/

namespace Sys2Proof.Machine

/-- SETRANGE up to its transport call: `ConfigurationError` without a request, or one write of the table's range
encoding with the new full scale latched. -/
def acceptSetrange (req : Operand) (row : Row) (s : State) : State :=
  match matchRange row req with
  | none => raiseError .configurationError s
  | some k =>
    issue (writeRequest row.rangeWidth s.cfg.devAddr row.rangeReg (row.rangeData k)) (.range (row.fsMv k)) s

/-- SETRANGE (R130). -/
def execSetrange (req : Operand) (s : State) : Host.Outcome State Fault Refusal := accept (acceptSetrange req) s

end Sys2Proof.Machine
end

