-- ==== Sys2Proof/Machine/Readiness.lean ====
section
/-! DEFINITION. BEGIN, the readiness check (spec/40_readiness.md R120). -/

namespace Sys2Proof.Machine

/-- BEGIN up to its transport call: one `T_READ_BYTE` of the device, always. -/
def acceptBegin (_ : Row) (s : State) : State := issue (.readByte s.cfg.devAddr) .begin s

/-- BEGIN (R120). The byte read is dropped and no state is written, whatever the outcome. -/
def execBegin (s : State) : Host.Outcome State Fault Refusal := accept acceptBegin s

end Sys2Proof.Machine
end

