-- ==== Sys2Proof/Machine/Dispatch.lean ====
section
/-! DEFINITION. The dispatch: one arm per command, each a direct call of its meaning. -/

namespace Sys2Proof.Machine

/-- The meaning of a command (spec/00_scope.md R15, with the transport's answer taken from the environment's next
move; spec/70_reset_and_hazards.md R216). -/
def exec (i : Instr) (s : State) : Host.Outcome State Fault Refusal :=
  match i with
  | .begin => Sys2Proof.Machine.execBegin s
  | .setrange req => Sys2Proof.Machine.execSetrange req s
  | .setvolt ch v => Sys2Proof.Machine.execSetvolt ch v s
  | .rdcode ch => Sys2Proof.Machine.execRdcode ch s
  | .rdfs ch => Sys2Proof.Machine.execRdfs ch s

end Sys2Proof.Machine
end

