-- ==== Sys2Proof/Machine/Step.lean ====
section
/-! DEFINITION. One step of the machine, and the word a host presents for it. -/

namespace Sys2Proof.Machine

/-- One step. When the VRC takes a word it decodes it, and runs the command or answers `IllegalCommand`
(spec/60_exceptions.md R186); otherwise the environment moves (log 5). -/
def step (s : State) : Host.Outcome State Fault Refusal :=
  match fetch s with
  | none => envStep s
  | some w =>
    match decode w with
    | some i => exec i s
    | none => execIllegal s

/-- `s` with an instruction of the opcode table presented at the command port, in the phase that takes it (log 11). -/
def State.withFetchWord (s : State) (nbits w : Nat) : State :=
  { s with phase := .idle, cmdPort := some (BitVec.ofNat 48 (w % 2 ^ nbits)) }

end Sys2Proof.Machine
end

