-- ==== Sys2Proof/Machine/BigStep.lean ====
section
/-! DEFINITION. The spec's other description of a command, the atomic big step
`exec(cfg, s, cmd, tau) = (s', trace, rsp)` of spec/00_scope.md R15, written straight from the pseudocode of R120, R130,
R150, R170 and R171, without `PHASE` and `PEND`. The machine does not use it: a statement says that the two agree, as
R15 and spec/70_reset_and_hazards.md R216 claim. -/

namespace Sys2Proof.Machine

/-- The architectural state of spec/10_state.md R20. -/
structure Arch where
  curFs : Millivolts
  ch : List Channel
deriving DecidableEq, Repr

/-- The architectural part of a state. -/
def State.arch (s : State) : Arch := { curFs := s.curFs, ch := s.ch }

/-- `(s', trace, rsp)` (R15). -/
structure BigResult where
  arch : Arch
  trace : List Request
  rsp : Response
deriving DecidableEq, Repr

/-- `respond(status, data)` with the requests issued so far (spec/00_scope.md R14). -/
def Arch.respond (a : Arch) (trace : List Request) (st : Status) (data : BitVec 16) : BigResult :=
  { arch := a, trace := trace, rsp := { status := st, data := data } }

/-- The pseudocode of R120. -/
def bigBegin (cfg : Cfg) (a : Arch) (tau : Answer) : BigResult :=
  let trace := [Request.readByte cfg.devAddr]
  if tau.ok then a.respond trace .ok 0 else a.respond trace .transportError 0

/-- The pseudocode of R130 from the transport call on, for the allowed value `k`. -/
def bigRangeWrite (cfg : Cfg) (row : Row) (k : Fin 2) (a : Arch) (tau : Answer) : BigResult :=
  let req := match row.rangeWidth with
    | .byte => Request.writeByte cfg.devAddr row.rangeReg ((row.rangeData k).setWidth 8)
    | .word => Request.writeWord cfg.devAddr row.rangeReg (row.rangeData k)
  if tau.ok then { a with curFs := row.fsMv k }.respond [req] .ok 0 else a.respond [req] .transportError 0

/-- The pseudocode of R130. -/
def bigSetrange (cfg : Cfg) (row : Row) (a : Arch) (req : Operand) (tau : Answer) : BigResult :=
  if row.nRanges = 1 then a.respond [] .configurationError 0
  else if req = row.fs0.setWidth 32 then bigRangeWrite cfg row 0 a tau
  else if req = row.fs1.setWidth 32 then bigRangeWrite cfg row 1 a tau
  else a.respond [] .configurationError 0

/-- The pseudocode of R150. -/
def bigSetvolt (cfg : Cfg) (row : Row) (a : Arch) (ch : ChannelIndex) (v : Operand) (tau : Answer) : BigResult :=
  if row.nChannels ≤ ch.toNat then a.respond [] .channelError 0
  else
    let fs := a.curFs
    let mvc := clampMv v fs
    let code := scale mvc row.maxCode fs
    let data := pack code row
    let req := match row.valWidth with
      | .byte => Request.writeByte cfg.devAddr (row.valReg ch.toNat) (data.setWidth 8)
      | .word => Request.writeWord cfg.devAddr (row.valReg ch.toNat) data
    if tau.ok then
      let entry : Channel := { rawCode := recorded row mvc code, fsSnap := newSnap row mvc fs }
      { a with ch := a.ch.set ch.toNat entry }.respond [req] .ok 0
    else a.respond [req] .transportError 0

/-- The pseudocode of R170 and R171; an index without an entry is `ChannelError` too (log 14). -/
def bigRead (row : Row) (a : Arch) (ch : ChannelIndex) (field : Channel → BitVec 16) : BigResult :=
  if row.nChannels ≤ ch.toNat then a.respond [] .channelError 0
  else match a.ch[ch.toNat]? with
    | some c => a.respond [] .ok (field c)
    | none => a.respond [] .channelError 0

/-- `exec(cfg, s, cmd, tau)` (R15), with the selected row given. -/
def bigStep (cfg : Cfg) (row : Row) (a : Arch) (cmd : CommandWord) (tau : Answer) : BigResult :=
  match decode cmd with
  | none => a.respond [] .illegalCommand 0
  | some .begin => bigBegin cfg a tau
  | some (.setrange req) => bigSetrange cfg row a req tau
  | some (.setvolt ch v) => bigSetvolt cfg row a ch v tau
  | some (.rdcode ch) => bigRead row a ch Channel.rawCode
  | some (.rdfs ch) => bigRead row a ch Channel.fsSnap

end Sys2Proof.Machine
end

