-- ==== Sys2Proof/Machine/TwoPhase.lean ====
section
/-! DEFINITION. The machine at the finer grain of spec/70_reset_and_hazards.md R216, in which step A and step B are
always two steps (spec/00_scope.md R18). The machine of Step.lean does step B at once when the answer is the next move
(log 6): a statement says that each of its steps is one or two steps of this one. -/

namespace Sys2Proof.Machine

/-- A command up to its transport call (R216, step A). -/
def stepA (i : Instr) : Row → State → State :=
  match i with
  | .begin => acceptBegin
  | .setrange req => acceptSetrange req
  | .setvolt ch v => acceptSetvolt ch v
  | .rdcode ch => respondField Channel.rawCode ch
  | .rdfs ch => respondField Channel.fsSnap ch

/-- What step A does with a word: a command up to its transport call, or `IllegalCommand`. -/
def stepAWord (w : CommandWord) : Row → State → State :=
  match decode w with
  | some i => stepA i
  | none => acceptIllegal

/-- One step at the finer grain: step A of the word the VRC takes, or a move of the environment, of which step B is one. -/
def phaseStep (s : State) : Host.Outcome State Fault Refusal :=
  match fetch s with
  | none => envStep s
  | some w =>
    match selectedRow s.cfg with
    | none => .refused .illegalConfiguration
    | some row => .next (stepAWord w row (takeWord s))

end Sys2Proof.Machine
end

