-- ==== Sys2Proof/Safety.lean ====
section
/-! DEFINITION. What the statements speak of: the invariants of spec/10_state.md R36 to R39, when a run is over and what
is observed of it (spec/00_scope.md R19), and the erasure of what the VRC must not use (spec/40_readiness.md R121). -/

namespace Sys2Proof.Machine

/-- The bound on a recorded value (R36): the largest code on a `SCALED` row, the entry's own snapshot on a `MILLIVOLT`
row. -/
def Channel.RawBound (row : Row) (c : Channel) : Prop :=
  match row.recKind with
  | .scaled => c.rawCode.toNat ≤ row.maxCode.toNat
  | .millivolt => c.rawCode.toNat ≤ c.fsSnap.toNat

/-- An entry as R36 and R38 bound it. -/
structure Channel.Ok (row : Row) (c : Channel) : Prop where
  snap_allowed : c.fsSnap ∈ row.allowedFs
  raw_bound : c.RawBound row

/-- What `PEND` may hold while a request is outstanding: only what the command that latched it may commit (R36 to R39;
spec/70_reset_and_hazards.md R216). -/
def Pend.Ok (row : Row) : Pend → Prop
  | .begin => True
  | .range newFs => newFs ∈ row.allowedFs
  | .volt ch newCode newSnap =>
    ch.toNat < row.nChannels ∧ Channel.Ok row { rawCode := newCode, fsSnap := newSnap }

/-- The invariants of R36 to R39 under the selected row: `CUR_FS` is an allowed full scale (R37), there are exactly
`n_channels` entries (R22), each within its bounds (R36, R38), and `PEND` in `WAIT` can only commit such values. -/
structure State.InvFor (row : Row) (s : State) : Prop where
  row_selected : selectedRow s.cfg = some row
  curFs_allowed : s.curFs ∈ row.allowedFs
  ch_length : s.ch.length = row.nChannels
  ch_ok : ∀ c ∈ s.ch, Channel.Ok row c
  pend_ok : s.phase = .wait → Pend.Ok row s.pend

/-- The invariant of the machine: a legal configuration, and R36 to R39 under its row. -/
def State.Inv (s : State) : Prop := ∃ row, s.InvFor row

/-- The VRC can take a command: it is in `IDLE` (spec/70_reset_and_hazards.md R216) under a legal configuration, whose
selected row is `row` (R213). -/
structure State.Ready (row : Row) (s : State) : Prop where
  idle : s.phase = .idle
  row_selected : selectedRow s.cfg = some row

/-- From `s` to `t` one command ran to its end, with the new architectural state, the requests and the response of `b`
(spec/00_scope.md R15): the configuration is as before and the VRC is in `IDLE`. Nothing is said of the ports. -/
structure Completed (s t : State) (b : BigResult) : Prop where
  arch : t.arch = b.arch
  cfg : t.cfg = s.cfg
  phase : t.phase = .idle
  treq : t.treq = s.treq ++ b.trace.map Request.word
  rsp : t.rsp = s.rsp ++ [b.rsp.word]

/-- From `s` to `t` a command ran up to its transport call and waits for the answer, with `p` latched
(spec/70_reset_and_hazards.md R216, step A): one request issued, no response, the architectural state as before. -/
structure Waiting (s t : State) (r : Request) (p : Pend) : Prop where
  arch : t.arch = s.arch
  cfg : t.cfg = s.cfg
  phase : t.phase = .wait
  pend : t.pend = p
  treq : t.treq = s.treq ++ [r.word]
  rsp : t.rsp = s.rsp

/-- A request is one the selected row lets a command issue (spec/20_memory.md R63). -/
def allowedRequest (cfg : Cfg) (row : Row) (i : Instr) (r : Request) : Prop :=
  match i with
  | .begin => r = .readByte cfg.devAddr
  | .setrange _ =>
    row.nRanges = 2 ∧ ((∃ d, r = .writeByte cfg.devAddr row.rangeReg d) ∨ ∃ d, r = .writeWord cfg.devAddr row.rangeReg d)
  | .setvolt ch _ =>
    ch.toNat < row.nChannels ∧
      ((∃ d, r = .writeByte cfg.devAddr (row.valReg ch.toNat) d) ∨
        ∃ d, r = .writeWord cfg.devAddr (row.valReg ch.toNat) d)
  | .rdcode _ => False
  | .rdfs _ => False

/-- Every response word carries one of the five status values (spec/30_encoding.md R97). -/
def State.StatusInv (s : State) : Prop := ∀ w ∈ s.rsp, (w.extractLsb' 16 4).toNat ≤ 4

/-- The move is an answer to the outstanding request. -/
def EnvMove.isAnswer : EnvMove → Bool
  | .answer _ => true
  | _ => false

/-- The move is a reset. -/
def EnvMove.isReset : EnvMove → Bool
  | .reset _ => true
  | _ => false

/-- The move a step hands to the environment: none when the VRC takes a word, or when no move is left. -/
def nextMove (s : State) : Option EnvMove :=
  match fetch s with
  | some _ => none
  | none => s.env.head?

/-- The move is a word the host presents. -/
def EnvMove.isPresent : EnvMove → Bool
  | .present _ => true
  | _ => false

/-- The moves to come that belong to the current run: those before the next reset, which begins another run
(spec/00_scope.md R19). -/
def State.runMoves (s : State) : List EnvMove := s.env.takeWhile (fun m => !m.isReset)

/-- The current run is over when `PHASE` is `IDLE` and every word of it has its response: none is held, and none is
still to come in this run (spec/00_scope.md R19). -/
def State.over (s : State) : Bool :=
  s.phase == .idle && s.cmdPort.isNone && s.runMoves.all (fun m => !m.isPresent)

/-- The observation of a finished run (spec/00_scope.md R19). -/
structure Observation where
  rsp : List ResponseWord
  treq : List RequestWord
  curFs : Millivolts
  ch : List Channel
deriving DecidableEq, Repr

/-- What is observed of the current run: the responses and the requests since its reset, and the values of `CUR_FS` and
of every entry of `CH` (spec/00_scope.md R19). -/
def State.observe (s : State) : Observation :=
  { rsp := s.rsp.drop s.rspStart, treq := s.treq.drop s.treqStart, curFs := s.curFs, ch := s.ch }

/-- The current run begins within the records. -/
structure State.RunStartOk (s : State) : Prop where
  rsp : s.rspStart ≤ s.rsp.length
  treq : s.treqStart ≤ s.treq.length

/-- An answer word with its byte set to 0, its `OK` bit kept. -/
def forgetByte (w : AnswerWord) : AnswerWord := Answer.word { ok := (Answer.ofWord w).ok, byte := 0 }

/-- A move with the byte of an answer forgotten. -/
def EnvMove.forgetByte : EnvMove → EnvMove
  | .answer w => .answer (Machine.forgetByte w)
  | .lateAnswer w => .lateAnswer (Machine.forgetByte w)
  | .present w => .present w
  | .reset st => .reset st

/-- A state with the byte of every answer still to come forgotten. -/
def State.forgetBytes (s : State) : State := { s with env := s.env.map EnvMove.forgetByte }

/-- Apply a function to the next state of an outcome. -/
def mapNext (f : State → State) : Host.Outcome State Fault Refusal → Host.Outcome State Fault Refusal
  | .next s => .next (f s)
  | .fault r => .fault r
  | .refused r => .refused r

end Sys2Proof.Machine
end

