-- ==== Sys2Proof/Certificates/Slice0/Obligations.lean ====
section
/-! DEFINITION. The statements for the provers. Each docstring names the rule of spec/ it formalises. Where a statement
takes `s.env = .answer w :: rest` as a hypothesis, that is how the transport's answer `tau` of spec/00_scope.md R15 is
given: as the environment's next move (the model's own port, log 5). -/

open Sys2Proof Sys2Proof.Machine

/-! ### Encodings -/

/-- spec/30_encoding.md R91, R92: decoding is a bijection between the commands, with every operand at every value, and
the words that decode. -/
def Obligations.DecodeAndEncodeAgree : Prop :=
  (∀ i : Instr, decode (encode i) = some i) ∧ ∀ (w : CommandWord) (i : Instr), decode w = some i → encode i = w

/-- R93: a word is a command if and only if `(w AND mask) = match`, with the five masks and matches of the table. -/
def Obligations.EachCommandIsItsMatchAndMask : Prop :=
  ∀ w : CommandWord,
    (decode w = some .begin ↔ w &&& 0xFFFFFFFFFFFF#48 = 0x100000000000#48) ∧
    ((∃ req, decode w = some (.setrange req)) ↔ w &&& 0xFFFF00000000#48 = 0x200000000000#48) ∧
    ((∃ ch v, decode w = some (.setvolt ch v)) ↔ w &&& 0xFF0000000000#48 = 0x300000000000#48) ∧
    ((∃ ch, decode w = some (.rdcode ch)) ↔ w &&& 0xFF00FFFFFFFF#48 = 0x400000000000#48) ∧
    ((∃ ch, decode w = some (.rdfs ch)) ↔ w &&& 0xFF00FFFFFFFF#48 = 0x500000000000#48) ∧
    ∀ r ∈ opcodeTable, ∀ r' ∈ opcodeTable, r.accepts w = true → r'.accepts w = true → r = r'

/-- R95: which words are illegal, and that one is answered with `IllegalCommand`, writes no state and issues no request;
the all-zero word is illegal. -/
def Obligations.IllegalWordsAreAnsweredAndDoNothing : Prop :=
  (∀ w : CommandWord, decode w = none ↔
    (w.extractLsb' 44 4).toNat = 0 ∨ 6 ≤ (w.extractLsb' 44 4).toNat ∨
    (w.extractLsb' 40 4).toNat ≠ 0 ∨
    (((w.extractLsb' 44 4).toNat = 1 ∨ (w.extractLsb' 44 4).toNat = 2) ∧ (w.extractLsb' 32 8).toNat ≠ 0) ∨
    (((w.extractLsb' 44 4).toNat = 1 ∨ (w.extractLsb' 44 4).toNat = 4 ∨ (w.extractLsb' 44 4).toNat = 5) ∧
      (w.extractLsb' 0 32).toNat ≠ 0)) ∧
  decode 0 = none ∧
  ∀ (s : State) (row : Row) (w : CommandWord), s.Ready row → s.cmdPort = some w → decode w = none →
    ∃ t, step s = .next t ∧ Completed s t { arch := s.arch, trace := [], rsp := ⟨.illegalCommand, 0⟩ }

/-- Sanity: the example words of R100 and of the worked examples decode to the commands the spec writes beside them. -/
def Obligations.ExampleWordsDecode : Prop :=
  decode 0x100000000000 = some .begin ∧
  decode 0x3000000007D0 = some (.setvolt 0 2000) ∧
  decode 0x3001FFFFFFFB = some (.setvolt 1 (-5)) ∧
  decode 0x200000002710 = some (.setrange 10000) ∧
  decode 0x500100000000 = some (.rdfs 1) ∧
  decode 0x400200000000 = some (.rdcode 2)

/-- spec/60_exceptions.md R181, spec/30_encoding.md R96: where the two fields of a response word stand, and the number of
each status. -/
def Obligations.ResponseWordLayout : Prop :=
  (∀ r : Response, r.word.extractLsb' 16 4 = r.status.code ∧ r.word.extractLsb' 0 16 = r.data) ∧
  Status.ok.code = 0 ∧ Status.channelError.code = 1 ∧ Status.configurationError.code = 2 ∧
  Status.transportError.code = 3 ∧ Status.illegalCommand.code = 4

/-- R97: values 5 to 15 of `STATUS` are never produced; no step adds a response with one. -/
def Obligations.StatusValuesStayBelowFive : Prop :=
  State.StatusInv State.reset ∧ ∀ s t : State, s.StatusInv → step s = .next t → t.StatusInv

/-- R98: the fields of the request word of each kind; `KIND` 0 is never issued and `ADDR` is always `cfg.DEV_ADDR`. -/
def Obligations.RequestWordLayout : Prop :=
  (∀ addr, kindField (Request.readByte addr).word = 1 ∧ addrField (Request.readByte addr).word = addr ∧
    regField (Request.readByte addr).word = 0 ∧ dataField (Request.readByte addr).word = 0) ∧
  (∀ addr reg data, kindField (Request.writeByte addr reg data).word = 2 ∧
    addrField (Request.writeByte addr reg data).word = addr ∧ regField (Request.writeByte addr reg data).word = reg ∧
    (dataField (Request.writeByte addr reg data).word).toNat = data.toNat) ∧
  (∀ addr reg data, kindField (Request.writeWord addr reg data).word = 3 ∧
    addrField (Request.writeWord addr reg data).word = addr ∧ regField (Request.writeWord addr reg data).word = reg ∧
    dataField (Request.writeWord addr reg data).word = data) ∧
  (∀ w : RequestWord, kindField w = w.extractLsb' 32 2 ∧ addrField w = w.extractLsb' 24 8 ∧
    regField w = w.extractLsb' 16 8 ∧ dataField w = w.extractLsb' 0 16) ∧
  ∀ s t : State, step s = .next t →
    t.treq = s.treq ∨ ∃ w, t.treq = s.treq ++ [w] ∧ kindField w ≠ 0 ∧ addrField w = s.cfg.devAddr

/-- spec/20_memory.md R63: the only locations the VRC ever addresses, and by which command. -/
def Obligations.RequestsReachOnlyTheRowsLocations : Prop :=
  ∀ (s t : State) (row : Row), selectedRow s.cfg = some row → step s = .next t →
    t.treq = s.treq ∨
    ∃ w i r, fetch s = some w ∧ decode w = some i ∧ t.treq = s.treq ++ [Request.word r] ∧ allowedRequest s.cfg row i r

/-- R99: the answer word carries `OK` in bit 8 and `BYTE` in bits 7 to 0, and nothing else. -/
def Obligations.AnswerWordLayout : Prop :=
  (∀ a : Answer, Answer.ofWord a.word = a) ∧ (∀ w : AnswerWord, (Answer.ofWord w).word = w) ∧
  ∀ w : AnswerWord, ((Answer.ofWord w).ok = true ↔ 256 ≤ w.toNat) ∧ (Answer.ofWord w).byte.toNat = w.toNat % 256

/-- R100: the word of each line of assembler text, and that an operand out of bounds is an error. -/
def Obligations.AssemblerWords : Prop :=
  (assemble .begin).map (fun i => (encode i).toNat) = some 0x100000000000 ∧
  (∀ mv : Nat, (assemble (.setrange mv)).map (fun i => (encode i).toNat) =
    if mv < 2 ^ 32 then some (0x2000 * 2 ^ 32 + mv) else none) ∧
  (∀ (ch : Nat) (mv : Int), (assemble (.setvolt ch mv)).map (fun i => (encode i).toNat) =
    if ch ≤ 255 ∧ -(2 ^ 31) ≤ mv ∧ mv < 2 ^ 31 then some ((0x30 * 2 ^ 8 + ch) * 2 ^ 32 + (mv % 2 ^ 32).toNat) else none) ∧
  (∀ ch : Nat, (assemble (.rdcode ch)).map (fun i => (encode i).toNat) =
    if ch ≤ 255 then some ((0x40 * 2 ^ 8 + ch) * 2 ^ 32) else none) ∧
  ∀ ch : Nat, (assemble (.rdfs ch)).map (fun i => (encode i).toNat) =
    if ch ≤ 255 then some ((0x50 * 2 ^ 8 + ch) * 2 ^ 32) else none

/-- R101: the two pseudo-instructions expand to `SETVOLT <ch>, <volts * 1000>` and `SETRANGE <volts * 1000>` under their
conditions, and are refused otherwise. That a literal is a mantissa and a number of places is the model's choice
(log 19). -/
def Obligations.PseudoInstructionsExpand : Prop :=
  (∀ (ch : Nat) (x : Volts), assemble (.setv ch x) =
    if x.places ≤ 3 then assemble (.setvolt ch (x.mantissa * 10 ^ (3 - x.places))) else none) ∧
  (∀ x : Volts, assemble (.setrangev x) =
    if x.places ≤ 3 ∧ 0 ≤ x.mantissa then assemble (.setrange (x.mantissa * 10 ^ (3 - x.places)).toNat) else none) ∧
  assemble (.setv 0 ⟨20, 1⟩) = assemble (.setvolt 0 2000) ∧
  assemble (.setv 0 ⟨167, 3⟩) = assemble (.setvolt 0 167)

/-! ### The converter -/

/-- spec/42_voltage.md R140: the clamp is taken on the whole signed operand, its bounds are inclusive. -/
def Obligations.ClampSaturatesTheSignedRequest : Prop :=
  ∀ (v : Operand) (fs : Millivolts),
    (v.toInt < 0 → clampMv v fs = 0 ∧ clampLo v = true ∧ clampHi v fs = false) ∧
    (0 ≤ v.toInt → v.toInt ≤ fs.toNat →
      ((clampMv v fs).toNat : Int) = v.toInt ∧ clampLo v = false ∧ clampHi v fs = false) ∧
    ((fs.toNat : Int) < v.toInt → clampMv v fs = fs ∧ clampLo v = false ∧ clampHi v fs = true) ∧
    (clampMv v fs).toNat ≤ fs.toNat

/-- R141: the code is the integer quotient `(mvc * maxc + floor(fs / 2)) udiv fs`; the end points are exact. -/
def Obligations.ScaleIsTheRoundedQuotient : Prop :=
  ∀ (mvc fs : Millivolts) (maxc : Code), 1 ≤ fs.toNat → mvc.toNat ≤ fs.toNat →
    (scale mvc maxc fs).toNat = (mvc.toNat * maxc.toNat + fs.toNat / 2) / fs.toNat ∧
    (scale mvc maxc fs).toNat ≤ maxc.toNat ∧ scale 0 maxc fs = 0 ∧ scale fs maxc fs = maxc

/-- R142: the exact quotient is rounded to the nearest integer and an exact tie up; where the ties are for the
resolutions and full scales the rule names; and that round-half-to-even differs exactly at the ties whose rounded-up
result is odd. -/
def Obligations.TiesRoundUp : Prop :=
  (∀ (mvc fs : Millivolts) (maxc : Code), 1 ≤ fs.toNat → mvc.toNat ≤ fs.toNat →
    let num := mvc.toNat * maxc.toNat
    let a := num / fs.toNat
    let r := num % fs.toNat
    let halfEven := if 2 * r = fs.toNat then (if a % 2 = 0 then a else a + 1) else if fs.toNat < 2 * r then a + 1 else a
    (scale mvc maxc fs).toNat = (if fs.toNat ≤ 2 * r then a + 1 else a) ∧
    (fs.toNat % 2 = 1 → 2 * r ≠ fs.toNat) ∧
    ((scale mvc maxc fs).toNat ≠ halfEven ↔ 2 * r = fs.toNat ∧ (scale mvc maxc fs).toNat % 2 = 1)) ∧
  (∀ maxc ∈ [255, 4095, 65535], ∀ fs ∈ [2500, 5000, 10000], ∀ mvc : Nat, mvc ≤ fs →
    (2 * (mvc * maxc % fs) = fs ↔ ∃ k ∈ [1, 3, 5, 7, 9], 10 * mvc = k * fs)) ∧
  [500, 1500, 2500, 3500, 4500].map (fun m => (scale (BitVec.ofNat 16 m) 4095 5000).toNat) =
    [410, 1229, 2048, 2867, 3686]

/-- R143: the product and the sum are exact on 32 bits, and the saturation branch is never taken. -/
def Obligations.ConverterNeverWraps : Prop :=
  ∀ (mvc fs : Millivolts) (maxc : Code), 1 ≤ fs.toNat → mvc.toNat ≤ fs.toNat →
    (scaleNum mvc maxc).toNat = mvc.toNat * maxc.toNat ∧
    (scaleNum mvc maxc + (fs >>> 1).setWidth 32).toNat = mvc.toNat * maxc.toNat + fs.toNat / 2 ∧
    mvc.toNat * maxc.toNat ≤ 4294836225 ∧ mvc.toNat * maxc.toNat + fs.toNat / 2 ≤ 4294868992 ∧
    (scaleQuotient mvc maxc fs).toNat ≤ maxc.toNat

/-- R144: packing a code of a well-formed row drops no bit, fits the width, leaves the low bits 0, and the code can be
recovered. -/
def Obligations.PackingLosesNoBit : Prop :=
  ∀ (row : Row) (code : Code), row.wf = true → code.toNat ≤ row.maxCode.toNat →
    (pack code row).toNat = code.toNat * 2 ^ row.packShift ∧
    pack code row >>> row.packShift = code ∧
    (row.valWidth = .byte → (pack code row).toNat < 256) ∧
    ∀ j, j < row.packShift → (pack code row).getLsbD j = false

/-- R145, R146: what is recorded for each recording kind, the zero-write rule on the clamped value, and that the write
does not depend on the recording kind. -/
def Obligations.RecordingRules : Prop :=
  ∀ (row : Row) (mvc fs : Millivolts) (code : Code),
    (row.recKind = .scaled → recorded row mvc code = code) ∧
    (row.recKind = .millivolt → recorded row mvc code = mvc) ∧
    (row.zeroRestores = true → mvc = 0 → newSnap row mvc fs = row.fsMv row.defaultIdx) ∧
    ((row.zeroRestores = false ∨ mvc ≠ 0) → newSnap row mvc fs = fs) ∧
    (∀ v : Operand, v.toInt ≤ 0 → row.zeroRestores = true → newSnap row (clampMv v fs) fs = row.fsMv row.defaultIdx) ∧
    ∀ (addr : DevAddr) (ch : ChannelIndex) (v : Operand) (kind : RecKind),
      voltRequest { row with recKind := kind } addr ch v fs = voltRequest row addr ch v fs

/-- R151: the clamped request, the code sent, the data packed and the value recorded are non-decreasing in the request. -/
def Obligations.ConversionIsMonotone : Prop :=
  ∀ (row : Row) (fs : Millivolts) (v1 v2 : Operand), row.wf = true → 1 ≤ fs.toNat → v1.toInt ≤ v2.toInt →
    (clampMv v1 fs).toNat ≤ (clampMv v2 fs).toNat ∧
    (sentCode row v1 fs).toNat ≤ (sentCode row v2 fs).toNat ∧
    (pack (sentCode row v1 fs) row).toNat ≤ (pack (sentCode row v2 fs) row).toNat ∧
    (voltRecord row v1 fs).rawCode.toNat ≤ (voltRecord row v2 fs).rawCode.toNat

/-- R152: above full scale the code sent is `max_code`, below 0 it is 0; the record is the same on a `SCALED` row and
`CUR_FS` or 0 on a `MILLIVOLT` row. -/
def Obligations.OutOfRangeRequestsSaturate : Prop :=
  ∀ (row : Row) (fs : Millivolts) (v : Operand), row.wf = true → 1 ≤ fs.toNat →
    ((fs.toNat : Int) < v.toInt → sentCode row v fs = row.maxCode ∧
      (row.recKind = .scaled → (voltRecord row v fs).rawCode = row.maxCode) ∧
      (row.recKind = .millivolt → (voltRecord row v fs).rawCode = fs)) ∧
    (v.toInt < 0 → sentCode row v fs = 0 ∧ (voltRecord row v fs).rawCode = 0)

/-- R153: the code sent is within half a code of the exact scaling, and back in millivolts within half a step. -/
def Obligations.RoundTripWithinHalfAStep : Prop :=
  ∀ (row : Row) (fs : Millivolts) (v : Operand), row.wf = true → 1 ≤ fs.toNat →
    let code : ℚ := (sentCode row v fs).toNat
    let mvc : ℚ := (clampMv v fs).toNat
    let maxc : ℚ := row.maxCode.toNat
    let full : ℚ := fs.toNat
    |code - mvc * maxc / full| ≤ 1 / 2 ∧ |code * full / maxc - mvc| ≤ full / (2 * maxc)

/-! ### The five commands -/

/-- spec/40_readiness.md R120: BEGIN issues exactly one read of the device, whatever the state, and changes no state;
the byte is not returned. -/
def Obligations.BeginReadsOnceAndKeepsState : Prop :=
  decode 0x100000000000 = some .begin ∧
  ∀ (s : State) (row : Row) (w : AnswerWord) (rest : List EnvMove), s.Ready row → s.env = .answer w :: rest →
    ∃ t, exec .begin s = .next t ∧
      Completed s t
        { arch := s.arch, trace := [.readByte s.cfg.devAddr],
          rsp := ⟨if w.getLsbD 8 = true then .ok else .transportError, 0⟩ }

/-- spec/41_range.md R130: SETRANGE of an allowed value of a dual-range row issues one write of the table's range
encoding and commits `CUR_FS` when it succeeds; every other request is a `ConfigurationError` without a request. -/
def Obligations.SetrangeValidatesThenCommits : Prop :=
  (∀ req : Operand, decode (0x2000#16 ++ req) = some (.setrange req)) ∧
  ∀ (s : State) (row : Row), s.Ready row →
    (∀ (k : Fin 2) (w : AnswerWord) (rest : List EnvMove), row.nRanges = 2 → s.env = .answer w :: rest →
      ∃ t, exec (.setrange ((row.fsMv k).setWidth 32)) s = .next t ∧
        Completed s t
          { arch := if w.getLsbD 8 = true then { s.arch with curFs := row.fsMv k } else s.arch,
            trace :=
              [match row.rangeWidth with
                | .byte => .writeByte s.cfg.devAddr row.rangeReg ((row.rangeData k).setWidth 8)
                | .word => .writeWord s.cfg.devAddr row.rangeReg (row.rangeData k)],
            rsp := ⟨if w.getLsbD 8 = true then .ok else .transportError, 0⟩ }) ∧
    ∀ req : Operand, (row.nRanges = 1 ∨ ∀ k : Fin 2, req ≠ (row.fsMv k).setWidth 32) →
      ∃ t, exec (.setrange req) s = .next t ∧
        Completed s t { arch := s.arch, trace := [], rsp := ⟨.configurationError, 0⟩ }

/-- spec/42_voltage.md R150: SETVOLT on a channel of the model clamps, scales, packs, issues exactly one write to the
channel's register, and records both fields of the channel when it succeeds; on another index it is a `ChannelError`
without a request. -/
def Obligations.SetvoltConvertsSendsAndRecords : Prop :=
  (∀ (ch : ChannelIndex) (v : Operand), decode (0x30#8 ++ ch ++ v) = some (.setvolt ch v)) ∧
  ∀ (s : State) (row : Row) (ch : ChannelIndex) (v : Operand), s.Ready row →
    (∀ (w : AnswerWord) (rest : List EnvMove), ch.toNat < row.nChannels → s.env = .answer w :: rest →
      let mvc := clampMv v s.curFs
      let code := scale mvc row.maxCode s.curFs
      let data := pack code row
      let entry : Channel := { rawCode := recorded row mvc code, fsSnap := newSnap row mvc s.curFs }
      ∃ t, exec (.setvolt ch v) s = .next t ∧
        Completed s t
          { arch := if w.getLsbD 8 = true then { s.arch with ch := s.ch.set ch.toNat entry } else s.arch,
            trace :=
              [match row.valWidth with
                | .byte => .writeByte s.cfg.devAddr (row.valReg ch.toNat) (data.setWidth 8)
                | .word => .writeWord s.cfg.devAddr (row.valReg ch.toNat) data],
            rsp := ⟨if w.getLsbD 8 = true then .ok else .transportError, 0⟩ }) ∧
    (row.nChannels ≤ ch.toNat →
      ∃ t, exec (.setvolt ch v) s = .next t ∧
        Completed s t { arch := s.arch, trace := [], rsp := ⟨.channelError, 0⟩ })

/-- spec/43_accessors.md R170: RDCODE answers the recorded value of a channel of the model, and `ChannelError` for any
other index; no request, no state write. -/
def Obligations.RdcodeAnswersTheRecord : Prop :=
  (∀ ch : ChannelIndex, decode (0x40#8 ++ ch ++ 0#32) = some (.rdcode ch)) ∧
  ∀ (s : State) (row : Row) (ch : ChannelIndex), s.Ready row → s.ch.length = row.nChannels →
    (ch.toNat < row.nChannels →
      ∃ c t, s.ch[ch.toNat]? = some c ∧ exec (.rdcode ch) s = .next t ∧
        Completed s t { arch := s.arch, trace := [], rsp := ⟨.ok, c.rawCode⟩ }) ∧
    (row.nChannels ≤ ch.toNat →
      ∃ t, exec (.rdcode ch) s = .next t ∧
        Completed s t { arch := s.arch, trace := [], rsp := ⟨.channelError, 0⟩ })

/-- R171: RDFS answers the snapshot of a channel of the model, not `CUR_FS`, and `ChannelError` for any other index; no
request, no state write. -/
def Obligations.RdfsAnswersTheSnapshot : Prop :=
  (∀ ch : ChannelIndex, decode (0x50#8 ++ ch ++ 0#32) = some (.rdfs ch)) ∧
  ∀ (s : State) (row : Row) (ch : ChannelIndex), s.Ready row → s.ch.length = row.nChannels →
    (ch.toNat < row.nChannels →
      ∃ c t, s.ch[ch.toNat]? = some c ∧ exec (.rdfs ch) s = .next t ∧
        Completed s t { arch := s.arch, trace := [], rsp := ⟨.ok, c.fsSnap⟩ }) ∧
    (row.nChannels ≤ ch.toNat →
      ∃ t, exec (.rdfs ch) s = .next t ∧
        Completed s t { arch := s.arch, trace := [], rsp := ⟨.channelError, 0⟩ })

/-- The model's own ports (log 5, log 6): a command that runs takes the word from the port and no other word, takes the
answer to its own request from the list of moves, and leaves every other move there. -/
def Obligations.CommandsTakeOneWordAndTheirAnswer : Prop :=
  ∀ (i : Instr) (s t : State) (row : Row), s.Ready row → exec i s = .next t →
    t.cmdPort = none ∧
    (t.treq = s.treq → t.env = s.env) ∧
    (t.phase = .wait → t.env = s.env) ∧
    ∀ (w : AnswerWord) (rest : List EnvMove), s.env = .answer w :: rest → t.treq ≠ s.treq → t.env = rest ∧ t.phase = .idle

/-- spec/10_state.md R25: what BEGIN, RDCODE and RDFS leave unchanged, wherever the answer is: all architectural state
and the configuration; the accessors leave the requests and the phase too. -/
def Obligations.FrameOfBeginAndAccessors : Prop :=
  ∀ (i : Instr) (s t : State), exec i s = .next t →
    (i = .begin → t.curFs = s.curFs ∧ t.ch = s.ch ∧ t.cfg = s.cfg) ∧
    (∀ ch, i = .rdcode ch ∨ i = .rdfs ch →
      t.curFs = s.curFs ∧ t.ch = s.ch ∧ t.cfg = s.cfg ∧ t.treq = s.treq ∧ t.phase = s.phase ∧ t.pend = s.pend)

/-- R25, spec/41_range.md R133: SETRANGE leaves every channel entry and the configuration unchanged, and `CUR_FS` too
unless it answers `OK`; then `CUR_FS` is the value asked for. -/
def Obligations.FrameOfSetrange : Prop :=
  ∀ (req : Operand) (s t : State), exec (.setrange req) s = .next t →
    t.ch = s.ch ∧ t.cfg = s.cfg ∧
    (t.curFs = s.curFs ∨ (t.rsp = s.rsp ++ [Response.word ⟨.ok, 0⟩] ∧ t.curFs.setWidth 32 = req))

/-- R25, spec/20_memory.md R71: SETVOLT leaves `CUR_FS`, the configuration, the number of entries and every other
channel's entry unchanged, and its own entry too unless it answers `OK`. -/
def Obligations.FrameOfSetvolt : Prop :=
  ∀ (ch : ChannelIndex) (v : Operand) (s t : State), exec (.setvolt ch v) s = .next t →
    t.curFs = s.curFs ∧ t.cfg = s.cfg ∧ t.ch.length = s.ch.length ∧
    (∀ j, j ≠ ch.toNat → t.ch[j]? = s.ch[j]?) ∧
    (t.ch = s.ch ∨ t.rsp = s.rsp ++ [Response.word ⟨.ok, 0⟩])

/-! ### Errors -/

/-- spec/42_voltage.md R154, spec/60_exceptions.md R182: a channel index at or above `n_channels` is answered with
`ChannelError`, with no write and no state change, for each of the three commands that carry one. -/
def Obligations.ChannelGuard : Prop :=
  ∀ (s : State) (row : Row) (ch : ChannelIndex) (v : Operand), s.Ready row → row.nChannels ≤ ch.toNat →
    ∀ i ∈ [Instr.setvolt ch v, .rdcode ch, .rdfs ch],
      ∃ t, exec i s = .next t ∧ Completed s t { arch := s.arch, trace := [], rsp := ⟨.channelError, 0⟩ }

/-- spec/41_range.md R131, spec/60_exceptions.md R183: on a single-range row every SETRANGE, on a dual-range row every
unsupported one, is a `ConfigurationError` that leaves state unchanged and issues nothing; a supported one is not. -/
def Obligations.RangeSwitchExclusivity : Prop :=
  ∀ (s t : State) (row : Row) (req : Operand), s.Ready row → exec (.setrange req) s = .next t →
    ((row.nRanges = 1 ∨ (req ≠ row.fs0.setWidth 32 ∧ req ≠ row.fs1.setWidth 32)) →
      Completed s t { arch := s.arch, trace := [], rsp := ⟨.configurationError, 0⟩ }) ∧
    (row.nRanges = 2 → (req = row.fs0.setWidth 32 ∨ req = row.fs1.setWidth 32) →
      t.rsp ≠ s.rsp ++ [Response.word ⟨.configurationError, 0⟩] ∧ t.treq ≠ s.treq)

/-- R187: an error response ends the command with data 0, writes no architectural state and leaves `PHASE` in `IDLE`;
codes 1, 2 and 4 come without a request, code 3 after exactly the one that failed. -/
def Obligations.ErrorsArePrecise : Prop :=
  ∀ (s t : State) (st : Status) (d : BitVec 16), step s = .next t → t.rsp = s.rsp ++ [Response.word ⟨st, d⟩] → st ≠ .ok →
    d = 0 ∧ t.arch = s.arch ∧ t.cfg = s.cfg ∧ t.phase = .idle ∧
    (st ≠ .transportError → s.phase = .idle ∧ t.treq = s.treq) ∧
    (st = .transportError → s.phase = .idle → ∃ r, t.treq = s.treq ++ [r]) ∧
    (st = .transportError → s.phase = .wait → t.treq = s.treq)

/-- R186: decoding comes first, then the operand check of the command, then the transport. -/
def Obligations.ErrorPriority : Prop :=
  ∀ (s : State) (row : Row) (w : CommandWord), s.Ready row → s.cmdPort = some w →
    (decode w = none →
      ∃ t, step s = .next t ∧ Completed s t { arch := s.arch, trace := [], rsp := ⟨.illegalCommand, 0⟩ }) ∧
    (∀ ch v, row.nChannels ≤ ch.toNat →
      (decode w = some (.setvolt ch v) ∨ decode w = some (.rdcode ch) ∨ decode w = some (.rdfs ch)) →
      ∃ t, step s = .next t ∧ Completed s t { arch := s.arch, trace := [], rsp := ⟨.channelError, 0⟩ }) ∧
    (∀ req, decode w = some (.setrange req) → (row.nRanges = 1 ∨ ∀ k : Fin 2, req ≠ (row.fsMv k).setWidth 32) →
      ∃ t, step s = .next t ∧ Completed s t { arch := s.arch, trace := [], rsp := ⟨.configurationError, 0⟩ }) ∧
    ∀ t d, step s = .next t → t.rsp = s.rsp ++ [Response.word ⟨.transportError, d⟩] → ∃ r, t.treq = s.treq ++ [r]

/-- spec/60_exceptions.md R181 to R185: each error is raised by its own commands and for its own cause only. -/
def Obligations.EachErrorHasItsCause : Prop :=
  ∀ (s t : State) (row : Row) (st : Status) (d : BitVec 16), s.InvFor row → step s = .next t →
    t.rsp = s.rsp ++ [Response.word ⟨st, d⟩] →
    (st = .channelError → ∃ w ch, fetch s = some w ∧ row.nChannels ≤ ch.toNat ∧
      ((∃ v, decode w = some (.setvolt ch v)) ∨ decode w = some (.rdcode ch) ∨ decode w = some (.rdfs ch))) ∧
    (st = .configurationError → ∃ w req, fetch s = some w ∧ decode w = some (.setrange req) ∧
      (row.nRanges = 1 ∨ ∀ k : Fin 2, req ≠ (row.fsMv k).setWidth 32)) ∧
    (st = .transportError → ∃ a rest, s.env = .answer a :: rest ∧ a.getLsbD 8 = false ∧
      (s.phase = .wait ∨ ∃ w i, fetch s = some w ∧ decode w = some i ∧ ∀ ch, i ≠ .rdcode ch ∧ i ≠ .rdfs ch)) ∧
    (st = .illegalCommand → ∃ w, fetch s = some w ∧ decode w = none)

/-- spec/20_memory.md R65: how many requests each command issues: BEGIN one, SETRANGE and SETVOLT one if and only if the
operand is valid, the accessors and an illegal word none. -/
def Obligations.OneRequestPerValidCommand : Prop :=
  ∀ (s : State) (row : Row), s.Ready row →
    (∃ t r, exec .begin s = .next t ∧ t.treq = s.treq ++ [r] ∧ kindField r = 1) ∧
    (∀ req, ∃ t, exec (.setrange req) s = .next t ∧
      ((row.nRanges = 2 ∧ ∃ k : Fin 2, req = (row.fsMv k).setWidth 32) → ∃ r, t.treq = s.treq ++ [r] ∧ kindField r ≠ 1) ∧
      (¬ (row.nRanges = 2 ∧ ∃ k : Fin 2, req = (row.fsMv k).setWidth 32) → t.treq = s.treq)) ∧
    (∀ ch v, ∃ t, exec (.setvolt ch v) s = .next t ∧
      (ch.toNat < row.nChannels → ∃ r, t.treq = s.treq ++ [r] ∧ kindField r ≠ 1) ∧
      (row.nChannels ≤ ch.toNat → t.treq = s.treq)) ∧
    (∀ ch, ∃ t, exec (.rdcode ch) s = .next t ∧ t.treq = s.treq) ∧
    (∀ ch, ∃ t, exec (.rdfs ch) s = .next t ∧ t.treq = s.treq) ∧
    ∀ w, s.cmdPort = some w → decode w = none → ∃ t, step s = .next t ∧ t.treq = s.treq

/-- spec/30_encoding.md R96: every accepted command gives exactly one response, at once or when its answer comes; `DATA`
is 0 in it unless it is the `OK` of an accessor. -/
def Obligations.OneResponsePerCommand : Prop :=
  ∀ s t : State, step s = .next t →
    (∀ w, fetch s = some w →
      (t.phase = .wait ∧ t.rsp = s.rsp) ∨
      (t.phase = .idle ∧ ∃ r : Response, t.rsp = s.rsp ++ [r.word] ∧
        (r.data ≠ 0 → r.status = .ok ∧ ∃ ch, decode w = some (.rdcode ch) ∨ decode w = some (.rdfs ch)))) ∧
    (s.phase = .wait → ∀ w, nextMove s = some (.answer w) →
      t.phase = .idle ∧ ∃ r : Response, t.rsp = s.rsp ++ [r.word] ∧ r.data = 0) ∧
    (fetch s = none → (s.phase = .idle ∨ ∀ w, nextMove s ≠ some (.answer w)) → t.rsp = s.rsp)

/-! ### The two phases -/

/-- spec/00_scope.md R15, spec/70_reset_and_hazards.md R216: the step of the machine, and step A followed by step B at
the finer grain, both give what the atomic big step gives for the same word and the same answer. Two things in it are the
model's choices: that the answer is the next move of a list, and what is left of that list (`t.env`; log 5, DESIGN CHOICE),
and that the machine's one step takes the answer at once (log 6, DESIGN CHOICE). -/
def Obligations.TwoPhasesGiveTheBigStep : Prop :=
  ∀ (s : State) (row : Row) (w : CommandWord) (tau : Answer) (rest : List EnvMove),
    s.Ready row → s.cmdPort = some w → s.env = .answer tau.word :: rest →
    ∃ t, step s = .next t ∧ Completed s t (bigStep s.cfg row s.arch w tau) ∧
      ((bigStep s.cfg row s.arch w tau).trace = [] → t.env = s.env ∧ phaseStep s = .next t) ∧
      ((bigStep s.cfg row s.arch w tau).trace ≠ [] → t.env = rest ∧
        ∃ u, phaseStep s = .next u ∧ u.phase = .wait ∧ u.arch = s.arch ∧ u.rsp = s.rsp ∧ phaseStep u = .next t)

/-- R18, R216: each step of the machine is one step, or step A and step B, of the machine at the finer grain; the two
refuse alike. That the machine takes an answer at hand in the same step is the model's choice (log 6, DESIGN CHOICE). -/
def Obligations.StepRefinesTheTwoPhaseMachine : Prop :=
  (∀ s t : State, step s = .next t →
    phaseStep s = .next t ∨ ∃ u, phaseStep s = .next u ∧ u.phase = .wait ∧ phaseStep u = .next t) ∧
  (∀ s u : State, phaseStep s = .next u → step s = .next u ∨ (u.phase = .wait ∧ step s = phaseStep u)) ∧
  ∀ (s : State) (r : Refusal), step s = .refused r ↔ phaseStep s = .refused r

/-- R216: step A latches what the completion needs and waits; step B commits it or drops it. -/
def Obligations.AcceptLatchesAndCompleteCommits : Prop :=
  (∀ (s : State) (row : Row), s.Ready row → (∀ w rest, s.env ≠ .answer w :: rest) →
    (∃ t, exec .begin s = .next t ∧ Waiting s t (.readByte s.cfg.devAddr) .begin) ∧
    (∀ k : Fin 2, row.nRanges = 2 → ∃ t, exec (.setrange ((row.fsMv k).setWidth 32)) s = .next t ∧
      Waiting s t (writeRequest row.rangeWidth s.cfg.devAddr row.rangeReg (row.rangeData k)) (.range (row.fsMv k))) ∧
    ∀ (ch : ChannelIndex) (v : Operand), ch.toNat < row.nChannels →
      let mvc := clampMv v s.curFs
      let code := scale mvc row.maxCode s.curFs
      ∃ t, exec (.setvolt ch v) s = .next t ∧
        Waiting s t (writeRequest row.valWidth s.cfg.devAddr (row.valReg ch.toNat) (pack code row))
          (.volt ch (recorded row mvc code) (newSnap row mvc s.curFs))) ∧
  ∀ (s : State) (w : AnswerWord) (rest : List EnvMove), s.phase = .wait → s.env = .answer w :: rest →
    ∃ t, step s = .next t ∧
      Completed s t
        { arch :=
            if w.getLsbD 8 = true then
              match s.pend with
              | .begin => s.arch
              | .range newFs => { s.arch with curFs := newFs }
              | .volt ch code snap => { s.arch with ch := s.ch.set ch.toNat { rawCode := code, fsSnap := snap } }
            else s.arch,
          trace := [], rsp := ⟨if w.getLsbD 8 = true then .ok else .transportError, 0⟩ }

/-- R217: while `PHASE` is `WAIT` no command is accepted, a presented word is held, and the architectural state does not
change until the answer or a reset. That `exec` of a command in a state in `WAIT`, which no step calls, leaves the state
as it is, is the model's choice (log 12, DEDUCED from R217). -/
def Obligations.WaitHoldsCommandsAndState : Prop :=
  ∀ s : State, s.phase = .wait →
    fetch s = none ∧ (∀ i, exec i s = .next s) ∧
    ∀ t, step s = .next t →
      (t.phase = .wait →
        t.arch = s.arch ∧ t.cfg = s.cfg ∧ t.pend = s.pend ∧ t.rsp = s.rsp ∧ t.treq = s.treq) ∧
      ∀ w, s.cmdPort = some w → (∀ st, nextMove s ≠ some (.reset st)) → t.cmdPort = some w

/-- R218: `WAIT` is left by the answer or by reset only; without either the machine is in `WAIT` after any number of
steps, with no response given. -/
def Obligations.SilentTransportHangsForEver : Prop :=
  (∀ s t : State, s.phase = .wait → step s = .next t → t.phase = .idle →
    (∃ w, nextMove s = some (.answer w)) ∨ ∃ st, nextMove s = some (.reset st)) ∧
  ∀ (n : Nat) (s t : State), s.phase = .wait → (∀ m ∈ s.env, m.isAnswer = false ∧ m.isReset = false) →
    core.run n s = .next t → State.phase t = .wait ∧ State.rsp t = s.rsp ∧ State.arch t = s.arch

/-- The word at the port, when the VRC takes it and it decodes, is run by its meaning; nothing is added around it. -/
def Obligations.StepRunsTheDecodedCommand : Prop :=
  ∀ (s : State) (w : CommandWord) (i : Instr), s.phase = .idle → s.cmdPort = some w → decode w = some i →
    step s = exec i s

/-- A word put at the port by `withFetchWord` is the one the next step runs (log 11). -/
def Obligations.PresentedTableWordRunsNext : Prop :=
  ∀ (s : State) (i : Instr),
    decodeTableWord 48 (encode i).toNat = some i ∧
    step (s.withFetchWord 48 (encode i).toNat) = exec i (s.withFetchWord 48 (encode i).toNat)

/-! ### Reset and configuration -/

/-- spec/10_state.md R42, R27, spec/70_reset_and_hazards.md R210, R211: what a reset leaves when it is the environment's
next move, in `WAIT` or in `IDLE` without a word at the port (with one there the VRC takes the word first, the model's
choice, log 5), and that it issues no request. That it leaves the table as it is, is the model's choice too (log 10,
DEDUCED). -/
def Obligations.ResetValues : Prop :=
  ∀ (s : State) (st : Straps) (row : Row) (rest : List EnvMove),
    fetch s = none → s.env = .reset st :: rest →
    Table.wf s.cfg.mt = true → st.model.toNat < 6 → s.cfg.mt[st.model.toNat]? = some row →
    ∃ t, step s = .next t ∧
      t.curFs = row.fsMv row.defaultIdx ∧ t.ch.length = row.nChannels ∧
      (∀ i, i < row.nChannels → t.ch[i]? = some { rawCode := 0, fsSnap := row.fsMv row.defaultIdx }) ∧
      t.phase = .idle ∧ t.cfg.model = st.model ∧ t.cfg.mt = s.cfg.mt ∧
      t.cfg.devAddr = (if st.addrOvrEn = true then st.addrOvr else row.defaultAddr) ∧
      t.treq = s.treq ∧ t.rsp = s.rsp

/-- R212: a reset during `WAIT` drops the pending update and gives no response, and a transport answer that arrives after
the reset is ignored, in `IDLE` and, as the environment marks it (log 9), in a later `WAIT`. With a word held at the port
the first clause holds because the model's reset drops that word: the model's choice (log 8, DESIGN CHOICE, unsafe). -/
def Obligations.ResetDropsThePendingUpdate : Prop :=
  (∀ (s t u : State) (st : Straps) (w : AnswerWord), s.phase = .wait → nextMove s = some (.reset st) →
    step s = .next t → t.env.head? = some (.answer w) → step t = .next u →
    t.rsp = s.rsp ∧ t.treq = s.treq ∧ u.arch = t.arch ∧ u.rsp = t.rsp ∧ u.treq = t.treq ∧ u.phase = .idle ∧
    ∀ c ∈ u.ch, c.rawCode = 0) ∧
  ∀ (s t : State) (w : AnswerWord), nextMove s = some (.lateAnswer w) → step s = .next t →
    t.arch = s.arch ∧ t.phase = s.phase ∧ t.pend = s.pend ∧ t.rsp = s.rsp ∧ t.treq = s.treq

/-- R32, R33: under `MODEL` 6 or 7, or an ill-formed table, a command word and a reset have no behaviour. The rules name
the refusal and not its moment: that it comes when a word is taken and when a reset is applied is the model's choice
(log 13, DEDUCED). -/
def Obligations.IllegalConfigurationIsRefused : Prop :=
  (∀ (s : State), s.phase = .idle → (Table.wf s.cfg.mt = false ∨ 6 ≤ s.cfg.model.toNat) →
    (∀ i, exec i s = .refused .illegalConfiguration) ∧
    ∀ w, s.cmdPort = some w → step s = .refused .illegalConfiguration) ∧
  ∀ (s : State) (st : Straps) (rest : List EnvMove), fetch s = none → s.env = .reset st :: rest →
    (Table.wf s.cfg.mt = false ∨ 6 ≤ st.model.toNat) → step s = .refused .illegalConfiguration

/-- R26, R35: the configuration is constant until the next reset, and no step changes the table. That a reset does not
change the table either is the model's choice (log 10, DEDUCED, unsafe): R26 counts it in what is sampled at reset. -/
def Obligations.ConfigurationConstantUntilReset : Prop :=
  ∀ s t : State, step s = .next t → t.cfg.mt = s.cfg.mt ∧ ((∀ st, nextMove s ≠ some (.reset st)) → t.cfg = s.cfg)

/-- R34, R42: MT_REF passes WF1 to WF9, and a reset with the straps of `State.reset`, from any state that holds MT_REF,
gives the configuration and the state of `State.reset`: the values of row 0. That `State.reset` takes MT_REF and `MODEL` 0
is the model's choice (log 2). -/
def Obligations.ResetStateIsAResetOfTheReferenceTable : Prop :=
  Table.wf mtRef = true ∧
  ∀ (s : State) (rest : List EnvMove), fetch s = none → s.env = .reset resetStraps :: rest → s.cfg.mt = mtRef →
    ∃ t, step s = .next t ∧ t.cfg = State.reset.cfg ∧ t.arch = State.reset.arch ∧ t.phase = State.reset.phase ∧
      t.arch = { curFs := 2500, ch := [⟨0, 2500⟩, ⟨0, 2500⟩] } ∧ t.cfg.model = 0 ∧ t.cfg.devAddr = 0x58 ∧
      t.phase = .idle ∧ t.treq = s.treq ∧ t.rsp = s.rsp

/-! ### Invariants and whole-machine rules -/

/-- R36 to R39: every step keeps the invariants, from every state that meets them. -/
def Obligations.StepKeepsTheInvariant : Prop :=
  ∀ s t : State, s.Inv → step s = .next t → t.Inv

/-- R36 to R39 hold after reset: at `State.reset` (log 2), and at the state after reset of every legal configuration. -/
def Obligations.ResetMeetsTheInvariant : Prop :=
  State.reset.Inv ∧ ∀ (cfg : Cfg) (row : Row), selectedRow cfg = some row → (State.resetWith cfg row).InvFor row

/-- R21: outside a reset, `CUR_FS` is written only by a SETRANGE whose write was answered `ok`. -/
def Obligations.OnlySetrangeWritesCurFs : Prop :=
  ∀ s t : State, step s = .next t → (∀ st, nextMove s ≠ some (.reset st)) → t.curFs ≠ s.curFs →
    ∃ a rest, s.env = .answer a :: rest ∧ a.getLsbD 8 = true ∧ t.rsp = s.rsp ++ [Response.word ⟨.ok, 0⟩] ∧
      ((s.phase = .wait ∧ s.pend = .range t.curFs) ∨
        ∃ w req, fetch s = some w ∧ decode w = some (.setrange req) ∧ t.curFs.setWidth 32 = req)

/-- R23, R24: outside a reset, an entry of `CH` is written only by a SETVOLT on its channel whose write was answered
`ok`. -/
def Obligations.OnlySetvoltWritesItsChannel : Prop :=
  ∀ (s t : State) (j : Nat), step s = .next t → (∀ st, nextMove s ≠ some (.reset st)) → t.ch[j]? ≠ s.ch[j]? →
    ∃ a rest, s.env = .answer a :: rest ∧ a.getLsbD 8 = true ∧ t.rsp = s.rsp ++ [Response.word ⟨.ok, 0⟩] ∧
      ((∃ ch code snap, s.phase = .wait ∧ s.pend = .volt ch code snap ∧ ch.toNat = j ∧
          t.ch[j]? = some { rawCode := code, fsSnap := snap }) ∨
        ∃ w ch v, fetch s = some w ∧ decode w = some (.setvolt ch v) ∧ ch.toNat = j)

/-- spec/41_range.md R132: what a step leaves in `CUR_FS` is an allowed value of the selected row; on a single-range row
`CUR_FS` keeps its value until a reset. -/
def Obligations.SingleRangeNeverChanges : Prop :=
  ∀ (s t : State) (row : Row), s.InvFor row → step s = .next t → (∀ st, nextMove s ≠ some (.reset st)) →
    t.curFs ∈ row.allowedFs ∧ (row.nRanges = 1 → t.curFs = s.curFs)

/-- spec/40_readiness.md R121: BEGIN is the only command that reads, and no run depends on a byte read: with the bytes of
all answers to come forgotten, every run goes the same way. -/
def Obligations.AnswerBytesAreNeverUsed : Prop :=
  (∀ (i : Instr) (s t : State) (r : RequestWord), exec i s = .next t → t.treq = s.treq ++ [r] → kindField r = 1 →
    i = .begin) ∧
  ∀ (n : Nat) (s : State),
    (core.run n s.forgetBytes : Host.Outcome State Fault Refusal) = mapNext State.forgetBytes (core.run n s)

/-- spec/10_state.md R41: `PEND` is never read while `PHASE` is `IDLE`: whatever it holds (the reset value of log 3 or any
other), a step from `IDLE` goes the same way, and what it latches does not depend on it. -/
def Obligations.PendIsNeverReadInIdle : Prop :=
  ∀ (s t : State) (p : Pend), s.phase = .idle → step s = .next t →
    ∃ q, step { s with pend := p } = .next { t with pend := q } ∧ (t.phase = .wait → q = t.pend)

/-- From a state that meets the invariant the machine stops for exactly two inputs, both of which the spec tells a model
to refuse: a second word beside a held one (R219), and a reset with `MODEL` 6 or 7 (R33). Every other step answers a next
state: no error of R181 stops the machine (spec/60_exceptions.md R187). The model's choices in it: when each refusal
comes, and that a second word beside a held one is R219's two words at once (log 13, DEDUCED); and that a step with
nothing to do answers the same state (log 7, DEDUCED). -/
def Obligations.RefusalsAreExactlyTwoInputs : Prop :=
  ∀ s : State, s.Inv →
    (∀ r : Refusal, step s = .refused r ↔
      (r = .twoCommandsAtOnce ∧ s.cmdPort ≠ none ∧ ∃ w, nextMove s = some (.present w)) ∨
      (r = .illegalConfiguration ∧ ∃ st, nextMove s = some (.reset st) ∧ 6 ≤ st.model.toNat)) ∧
    ((s.cmdPort = none ∨ ∀ w, nextMove s ≠ some (.present w)) →
      (∀ st, nextMove s = some (.reset st) → st.model.toNat < 6) → ∃ t, step s = .next t)

/-- spec/00_scope.md R19, spec/20_memory.md R73: a run that is over stays over, and its observation does not change, for
as many steps as no reset is among the moves to come. That a step with nothing to do answers the same state, and that
answers nobody awaits are ignored, are the model's choices (log 7, log 9). -/
def Obligations.FinishedRunIsQuiet : Prop :=
  ∀ (n : Nat) (s t : State), s.over = true → (∀ m ∈ s.env.take n, m.isReset = false) → core.run n s = .next t →
    State.over t = true ∧ State.observe t = s.observe

/-- spec/00_scope.md R19: a run begins at its own reset. A reset begins a run of which nothing is observed yet but the
reset state; every other step adds to the observation of the run exactly what it adds to the records; and the moves from
the next reset on do not count for the end of the run. That responses and requests are recorded in State is the model's
choice (log 17). -/
def Obligations.RunBeginsAtItsReset : Prop :=
  (∀ (s t : State) (st : Straps), nextMove s = some (.reset st) → step s = .next t →
    t.RunStartOk ∧ t.observe = { rsp := [], treq := [], curFs := t.curFs, ch := t.ch }) ∧
  (∀ s t : State, s.RunStartOk → step s = .next t → (∀ st, nextMove s ≠ some (.reset st)) →
    t.RunStartOk ∧ ∃ rsp treq,
      t.rsp = s.rsp ++ rsp ∧ t.observe.rsp = s.observe.rsp ++ rsp ∧
      t.treq = s.treq ++ treq ∧ t.observe.treq = s.observe.treq ++ treq) ∧
  ∀ (s : State) (pre post : List EnvMove) (st : Straps), (∀ m ∈ pre, m.isReset = false) →
    s.env = pre ++ .reset st :: post →
    (s.over = true ↔ s.phase = .idle ∧ s.cmdPort = none ∧ ∀ m ∈ pre, m.isPresent = false)
end

