-- ==== Sys2Proof/Laws/Datapath.lean ====
section
/-! SUPPORT. The converter's datapath in arithmetic terms: one spec lemma per function of Machine/Converter.lean, which
the proofs about SETVOLT cite instead of unfolding bit vectors. -/

namespace Sys2Proof.Machine

/-! ### The table's checks, one at a time -/

theorem Row.wf_checks {row : Row} (h : row.wf = true) :
    row.wf2 = true ∧ row.wf3 = true ∧ row.wf4 = true ∧ row.wf5 = true ∧ row.wf6 = true ∧ row.wf7 = true ∧
      row.wf8 = true ∧ row.wf9 = true := by
  simpa only [Row.wf, Bool.and_eq_true, and_assoc] using h

/-- WF3 with the full scales a dual-range row allows. -/
theorem Row.ranges_of_wf {row : Row} (h : row.wf = true) :
    (row.nRanges = 1 ∧ row.allowedFs = [row.fs0]) ∨
      (row.nRanges = 2 ∧ row.fs0 ≠ row.fs1 ∧ row.allowedFs = [row.fs0, row.fs1]) := by
  have h3 := (Row.wf_checks h).2.1
  simp only [Row.wf3, Bool.or_eq_true, beq_iff_eq, Bool.and_eq_true, bne_iff_ne, ne_eq] at h3
  rcases h3 with h1 | ⟨h2, hne⟩
  · exact .inl ⟨h1, by simp [Row.allowedFs, h1]⟩
  · exact .inr ⟨h2, hne, by simp [Row.allowedFs, h2]⟩

/-- WF4: the default full scale is an allowed one. -/
theorem Row.defaultFs_mem {row : Row} (h : row.wf = true) : row.defaultFs ∈ row.allowedFs := by
  have h4 := (Row.wf_checks h).2.2.1
  simp only [Row.wf4, decide_eq_true_eq] at h4
  rcases Row.ranges_of_wf h with ⟨h1, ha⟩ | ⟨h2, -, ha⟩
  · have h0 : row.defaultIdx = 0 := by ext; simp; omega
    simp [ha, Row.defaultFs, Row.fsMv, h0]
  · simp only [ha, Row.defaultFs, Row.fsMv]
    split <;> simp

/-- WF6: an allowed full scale is at least 1. -/
theorem Row.allowed_pos {row : Row} (h : row.wf = true) {fs : Millivolts} (hf : fs ∈ row.allowedFs) : 1 ≤ fs.toNat := by
  have h6 := (Row.wf_checks h).2.2.2.2.1
  simp only [Row.wf6, List.all_eq_true, bne_iff_ne, ne_eq] at h6
  have h0 := h6 fs hf
  have : fs.toNat ≠ 0 := fun hz => h0 (BitVec.eq_of_toNat_eq (by simpa using hz))
  omega

/-- WF5: the largest code is `2 ^ res_bits - 1`, at least 1. -/
theorem Row.maxCode_eq {row : Row} (h : row.wf = true) :
    1 ≤ row.resBits ∧ row.resBits ≤ 16 ∧ row.maxCode.toNat = 2 ^ row.resBits - 1 := by
  have h5 := (Row.wf_checks h).2.2.2.1
  simp only [Row.wf5, Bool.and_eq_true, decide_eq_true_eq, beq_iff_eq] at h5
  exact ⟨h5.1.1, h5.1.2, h5.2⟩

/-- The operand read as signed. -/
theorem sint32_range (v : Operand) : -(2 ^ 31) ≤ sint32 v ∧ sint32 v < 2 ^ 31 := by
  have h1 := v.toInt_lt; have h2 := v.le_toInt
  unfold sint32
  omega

/-- A non-negative operand reads the same signed and unsigned. -/
theorem sint32_nonneg {v : Operand} (h : 0 ≤ sint32 v) : sint32 v = v.toNat := by
  unfold sint32 at *
  rw [BitVec.toInt_eq_toNat_cond] at *
  split at h <;> [skip; omega]
  split <;> omega

@[simp] theorem clampLo_iff (v : Operand) : clampLo v = true ↔ sint32 v < 0 := by simp [clampLo]

@[simp] theorem clampHi_iff (v : Operand) (fs : Millivolts) :
    clampHi v fs = true ↔ 0 ≤ sint32 v ∧ (fs.toNat : Int) < sint32 v := by
  simp [clampHi, clampLo]

/-- The clamp as an integer: the request moved into `[0, fs]` (R140). -/
theorem clampMv_toInt (v : Operand) (fs : Millivolts) :
    ((clampMv v fs).toNat : Int) = max 0 (min (sint32 v) fs.toNat) := by
  unfold clampMv
  by_cases hlo : sint32 v < 0
  · rw [if_pos ((clampLo_iff v).2 hlo)]
    have h0 : (0 : Millivolts).toNat = 0 := rfl
    omega
  · rw [if_neg (fun h => hlo ((clampLo_iff v).1 h))]
    by_cases hhi : (fs.toNat : Int) < sint32 v
    · rw [if_pos ((clampHi_iff v fs).2 ⟨by omega, hhi⟩)]
      omega
    · rw [if_neg (fun h => hhi ((clampHi_iff v fs).1 h).2)]
      have hv := sint32_nonneg (v := v) (by omega)
      have hfs := fs.isLt
      rw [BitVec.toNat_setWidth, Nat.mod_eq_of_lt (by omega)]
      omega

theorem clampMv_le (v : Operand) (fs : Millivolts) : (clampMv v fs).toNat ≤ fs.toNat := by
  have := clampMv_toInt v fs
  omega

/-- The product is exact on 32 bits (R143). -/
theorem scaleNum_toNat (mvc : Millivolts) (maxc : Code) : (scaleNum mvc maxc).toNat = mvc.toNat * maxc.toNat := by
  have h1 := mvc.isLt; have h2 := maxc.isLt
  have : mvc.toNat * maxc.toNat ≤ 65535 * 65535 := Nat.mul_le_mul (by omega) (by omega)
  simp only [scaleNum, BitVec.toNat_mul, BitVec.toNat_setWidth]
  rw [Nat.mod_eq_of_lt (by omega : mvc.toNat < 2 ^ 32), Nat.mod_eq_of_lt (by omega : maxc.toNat < 2 ^ 32),
    Nat.mod_eq_of_lt (by omega)]

/-- `half = floor(fs / 2)` (R141). -/
theorem half_toNat (fs : Millivolts) : ((fs >>> 1).setWidth 32 : Product).toNat = fs.toNat / 2 := by
  have h := fs.isLt
  simp only [BitVec.toNat_setWidth, BitVec.toNat_ushiftRight, Nat.shiftRight_eq_div_pow]
  omega

/-- The dividend is exact on 32 bits (R143). -/
theorem dividend_toNat (mvc : Millivolts) (maxc : Code) (fs : Millivolts) :
    (scaleNum mvc maxc + (fs >>> 1).setWidth 32).toNat = mvc.toNat * maxc.toNat + fs.toNat / 2 := by
  have h1 := mvc.isLt; have h2 := maxc.isLt; have h3 := fs.isLt
  have : mvc.toNat * maxc.toNat ≤ 65535 * 65535 := Nat.mul_le_mul (by omega) (by omega)
  rw [BitVec.toNat_add, scaleNum_toNat, half_toNat, Nat.mod_eq_of_lt (by omega)]

theorem scaleQuotient_toNat (mvc : Millivolts) (maxc : Code) (fs : Millivolts) :
    (scaleQuotient mvc maxc fs).toNat = (mvc.toNat * maxc.toNat + fs.toNat / 2) / fs.toNat := by
  have h3 := fs.isLt
  rw [scaleQuotient, BitVec.toNat_udiv, dividend_toNat, BitVec.toNat_setWidth, Nat.mod_eq_of_lt (by omega)]

/-- The code never exceeds the largest code, whatever the full scale: the saturation of R141. -/
theorem scale_le (mvc : Millivolts) (maxc : Code) (fs : Millivolts) : (scale mvc maxc fs).toNat ≤ maxc.toNat := by
  unfold scale
  dsimp only
  split
  · rename_i h
    rw [BitVec.le_def, BitVec.toNat_setWidth] at h
    have h2 := maxc.isLt
    have := Nat.mod_le (scaleQuotient mvc maxc fs).toNat (2 ^ 16)
    rw [BitVec.toNat_setWidth]
    omega
  · exact Nat.le_refl _

/-- What SETVOLT records is within the bound of its row's recording kind, and its snapshot is allowed (R36, R38, R145,
R146). -/
theorem voltRecord_ok {row : Row} (hw : row.wf = true) (v : Operand) {fs : Millivolts} (hf : fs ∈ row.allowedFs) :
    Channel.Ok row (voltRecord row v fs) := by
  constructor
  · simp only [voltRecord, newSnap]
    split
    · exact Row.defaultFs_mem hw
    · exact hf
  · cases hk : row.recKind with
    | scaled =>
      simp only [Channel.RawBound, hk, voltRecord, recorded]
      exact scale_le _ _ _
    | millivolt =>
      simp only [Channel.RawBound, hk, voltRecord, recorded, newSnap]
      split
      · rename_i h
        rw [h.2]
        exact Nat.zero_le _
      · exact clampMv_le v fs

end Sys2Proof.Machine
end

