-- ==== Sys2Proof/Laws/Encoding.lean ====
section
/-! SUPPORT. What the fields of an assembled word are, and that a word is put together from its fields: the lemmas a
proof about encodings cites instead of unfolding bit slices. -/

namespace Sys2Proof

/-- A bit slice of a word as division and remainder. -/
theorem extractLsb'_toNat_div (n : Nat) (w : BitVec n) (start len : Nat) :
    (w.extractLsb' start len).toNat = w.toNat / 2 ^ start % 2 ^ len := by
  simp [Nat.shiftRight_eq_div_pow]

/-- A concatenation as multiplication and addition. -/
theorem append_toNat_add {n m : Nat} (a : BitVec n) (b : BitVec m) :
    (a ++ b).toNat = a.toNat * 2 ^ m + b.toNat := by
  rw [BitVec.toNat_append, ← Nat.shiftLeft_add_eq_or_of_lt b.isLt, Nat.shiftLeft_eq]

/-! ### The command word -/

theorem commandWord_toNat (op rsv : BitVec 4) (ch : ChannelIndex) (arg : Operand) :
    (commandWord op rsv ch arg).toNat =
      ((op.toNat * 2 ^ 4 + rsv.toNat) * 2 ^ 8 + ch.toNat) * 2 ^ 32 + arg.toNat := by
  simp only [commandWord, append_toNat_add]

theorem opField_commandWord (op rsv : BitVec 4) (ch : ChannelIndex) (arg : Operand) :
    opField (commandWord op rsv ch arg) = op := by
  apply BitVec.eq_of_toNat_eq
  rw [opField, extractLsb'_toNat_div, commandWord_toNat]
  have := op.isLt; have := rsv.isLt; have := ch.isLt; have := arg.isLt
  omega

theorem rsvField_commandWord (op rsv : BitVec 4) (ch : ChannelIndex) (arg : Operand) :
    rsvField (commandWord op rsv ch arg) = rsv := by
  apply BitVec.eq_of_toNat_eq
  rw [rsvField, extractLsb'_toNat_div, commandWord_toNat]
  have := op.isLt; have := rsv.isLt; have := ch.isLt; have := arg.isLt
  omega

theorem chField_commandWord (op rsv : BitVec 4) (ch : ChannelIndex) (arg : Operand) :
    chField (commandWord op rsv ch arg) = ch := by
  apply BitVec.eq_of_toNat_eq
  rw [chField, extractLsb'_toNat_div, commandWord_toNat]
  have := op.isLt; have := rsv.isLt; have := ch.isLt; have := arg.isLt
  omega

theorem argField_commandWord (op rsv : BitVec 4) (ch : ChannelIndex) (arg : Operand) :
    argField (commandWord op rsv ch arg) = arg := by
  apply BitVec.eq_of_toNat_eq
  rw [argField, extractLsb'_toNat_div, commandWord_toNat]
  have := op.isLt; have := rsv.isLt; have := ch.isLt; have := arg.isLt
  omega

/-- Every word is put together from its four fields: no bit of a word is outside them. -/
theorem commandWord_fields (w : CommandWord) :
    commandWord (opField w) (rsvField w) (chField w) (argField w) = w := by
  apply BitVec.eq_of_toNat_eq
  rw [commandWord_toNat, opField, rsvField, chField, argField]
  simp only [extractLsb'_toNat_div]
  have := w.isLt
  omega

/-- Masking a word masks its fields. -/
theorem commandWord_and (o r o' r' : BitVec 4) (c c' : ChannelIndex) (a a' : Operand) :
    commandWord o r c a &&& commandWord o' r' c' a' = commandWord (o &&& o') (r &&& r') (c &&& c') (a &&& a') := by
  rw [← commandWord_fields (commandWord o r c a &&& commandWord o' r' c' a')]
  congr 1
  · rw [opField, BitVec.extractLsb'_and, ← opField, ← opField, opField_commandWord, opField_commandWord]
  · rw [rsvField, BitVec.extractLsb'_and, ← rsvField, ← rsvField, rsvField_commandWord, rsvField_commandWord]
  · rw [chField, BitVec.extractLsb'_and, ← chField, ← chField, chField_commandWord, chField_commandWord]
  · rw [argField, BitVec.extractLsb'_and, ← argField, ← argField, argField_commandWord, argField_commandWord]

/-- Two words are equal exactly when their fields are. -/
theorem commandWord_inj {o r o' r' : BitVec 4} {c c' : ChannelIndex} {a a' : Operand} :
    commandWord o r c a = commandWord o' r' c' a' ↔ o = o' ∧ r = r' ∧ c = c' ∧ a = a' := by
  refine ⟨fun h => ⟨?_, ?_, ?_, ?_⟩, fun h => by obtain ⟨rfl, rfl, rfl, rfl⟩ := h; rfl⟩
  · simpa only [opField_commandWord] using congrArg opField h
  · simpa only [rsvField_commandWord] using congrArg rsvField h
  · simpa only [chField_commandWord] using congrArg chField h
  · simpa only [argField_commandWord] using congrArg argField h

/-! ### The transport words -/

theorem requestWord_toNat (kind : BitVec 2) (addr : DevAddr) (reg : ChipReg) (data : BitVec 16) :
    (requestWord kind addr reg data).toNat =
      ((kind.toNat * 2 ^ 8 + addr.toNat) * 2 ^ 8 + reg.toNat) * 2 ^ 16 + data.toNat := by
  simp only [requestWord, append_toNat_add]

theorem kindField_requestWord (kind : BitVec 2) (addr : DevAddr) (reg : ChipReg) (data : BitVec 16) :
    kindField (requestWord kind addr reg data) = kind := by
  apply BitVec.eq_of_toNat_eq
  rw [kindField, extractLsb'_toNat_div, requestWord_toNat]
  have := kind.isLt; have := addr.isLt; have := reg.isLt; have := data.isLt
  omega

theorem addrField_requestWord (kind : BitVec 2) (addr : DevAddr) (reg : ChipReg) (data : BitVec 16) :
    addrField (requestWord kind addr reg data) = addr := by
  apply BitVec.eq_of_toNat_eq
  rw [addrField, extractLsb'_toNat_div, requestWord_toNat]
  have := kind.isLt; have := addr.isLt; have := reg.isLt; have := data.isLt
  omega

theorem regField_requestWord (kind : BitVec 2) (addr : DevAddr) (reg : ChipReg) (data : BitVec 16) :
    regField (requestWord kind addr reg data) = reg := by
  apply BitVec.eq_of_toNat_eq
  rw [regField, extractLsb'_toNat_div, requestWord_toNat]
  have := kind.isLt; have := addr.isLt; have := reg.isLt; have := data.isLt
  omega

theorem dataField_requestWord (kind : BitVec 2) (addr : DevAddr) (reg : ChipReg) (data : BitVec 16) :
    dataField (requestWord kind addr reg data) = data := by
  apply BitVec.eq_of_toNat_eq
  rw [dataField, extractLsb'_toNat_div, requestWord_toNat]
  have := kind.isLt; have := addr.isLt; have := reg.isLt; have := data.isLt
  omega

@[simp] theorem ofWord_ok (w : AnswerWord) : (Answer.ofWord w).ok = w.getLsbD 8 := rfl

@[simp] theorem ofWord_byte (w : AnswerWord) : (Answer.ofWord w).byte = w.extractLsb' 0 8 := rfl

/-! ### The response word -/

theorem responseWord_toNat (r : Response) : r.word.toNat = r.status.code.toNat * 2 ^ 16 + r.data.toNat := by
  rw [Response.word, append_toNat_add]

theorem statusCode_le (s : Status) : s.code.toNat ≤ 4 := by cases s <;> decide

end Sys2Proof
end

