-- ==== Sys2Proof/Laws/State.lean ====
section
/-! SUPPORT. One lemma per field per update of State, true by rfl, so that no later proof unfolds a record update. -/

namespace Sys2Proof.Machine

/-! ### `respond` and `raiseError` -/

@[simp] theorem respond_curFs (st : Status) (d : BitVec 16) (s : State) :
    (respond st d s).curFs = s.curFs := rfl
@[simp] theorem respond_ch (st : Status) (d : BitVec 16) (s : State) :
    (respond st d s).ch = s.ch := rfl
@[simp] theorem respond_phase (st : Status) (d : BitVec 16) (s : State) :
    (respond st d s).phase = .idle := rfl
@[simp] theorem respond_pend (st : Status) (d : BitVec 16) (s : State) :
    (respond st d s).pend = s.pend := rfl
@[simp] theorem respond_cfg (st : Status) (d : BitVec 16) (s : State) :
    (respond st d s).cfg = s.cfg := rfl
@[simp] theorem respond_cmdPort (st : Status) (d : BitVec 16) (s : State) :
    (respond st d s).cmdPort = s.cmdPort := rfl
@[simp] theorem respond_env (st : Status) (d : BitVec 16) (s : State) :
    (respond st d s).env = s.env := rfl
@[simp] theorem respond_rsp (st : Status) (d : BitVec 16) (s : State) :
    (respond st d s).rsp = s.rsp ++ [Response.word { status := st, data := d }] := rfl
@[simp] theorem respond_treq (st : Status) (d : BitVec 16) (s : State) :
    (respond st d s).treq = s.treq := rfl
@[simp] theorem respond_rspStart (st : Status) (d : BitVec 16) (s : State) :
    (respond st d s).rspStart = s.rspStart := rfl
@[simp] theorem respond_treqStart (st : Status) (d : BitVec 16) (s : State) :
    (respond st d s).treqStart = s.treqStart := rfl

@[simp] theorem raiseError_curFs (e : Status) (s : State) :
    (raiseError e s).curFs = s.curFs := rfl
@[simp] theorem raiseError_ch (e : Status) (s : State) :
    (raiseError e s).ch = s.ch := rfl
@[simp] theorem raiseError_phase (e : Status) (s : State) :
    (raiseError e s).phase = .idle := rfl
@[simp] theorem raiseError_pend (e : Status) (s : State) :
    (raiseError e s).pend = s.pend := rfl
@[simp] theorem raiseError_cfg (e : Status) (s : State) :
    (raiseError e s).cfg = s.cfg := rfl
@[simp] theorem raiseError_cmdPort (e : Status) (s : State) :
    (raiseError e s).cmdPort = s.cmdPort := rfl
@[simp] theorem raiseError_env (e : Status) (s : State) :
    (raiseError e s).env = s.env := rfl
@[simp] theorem raiseError_rsp (e : Status) (s : State) :
    (raiseError e s).rsp = s.rsp ++ [Response.word { status := e, data := 0 }] := rfl
@[simp] theorem raiseError_treq (e : Status) (s : State) :
    (raiseError e s).treq = s.treq := rfl
@[simp] theorem raiseError_rspStart (e : Status) (s : State) :
    (raiseError e s).rspStart = s.rspStart := rfl
@[simp] theorem raiseError_treqStart (e : Status) (s : State) :
    (raiseError e s).treqStart = s.treqStart := rfl

/-! ### `issue` -/

@[simp] theorem issue_curFs (r : Request) (p : Pend) (s : State) :
    (issue r p s).curFs = s.curFs := rfl
@[simp] theorem issue_ch (r : Request) (p : Pend) (s : State) :
    (issue r p s).ch = s.ch := rfl
@[simp] theorem issue_phase (r : Request) (p : Pend) (s : State) :
    (issue r p s).phase = .wait := rfl
@[simp] theorem issue_pend (r : Request) (p : Pend) (s : State) :
    (issue r p s).pend = p := rfl
@[simp] theorem issue_cfg (r : Request) (p : Pend) (s : State) :
    (issue r p s).cfg = s.cfg := rfl
@[simp] theorem issue_cmdPort (r : Request) (p : Pend) (s : State) :
    (issue r p s).cmdPort = s.cmdPort := rfl
@[simp] theorem issue_env (r : Request) (p : Pend) (s : State) :
    (issue r p s).env = s.env := rfl
@[simp] theorem issue_rsp (r : Request) (p : Pend) (s : State) :
    (issue r p s).rsp = s.rsp := rfl
@[simp] theorem issue_treq (r : Request) (p : Pend) (s : State) :
    (issue r p s).treq = s.treq ++ [r.word] := rfl
@[simp] theorem issue_rspStart (r : Request) (p : Pend) (s : State) :
    (issue r p s).rspStart = s.rspStart := rfl
@[simp] theorem issue_treqStart (r : Request) (p : Pend) (s : State) :
    (issue r p s).treqStart = s.treqStart := rfl

/-! ### `takeWord` -/

@[simp] theorem takeWord_curFs (s : State) :
    (takeWord s).curFs = s.curFs := rfl
@[simp] theorem takeWord_ch (s : State) :
    (takeWord s).ch = s.ch := rfl
@[simp] theorem takeWord_phase (s : State) :
    (takeWord s).phase = s.phase := rfl
@[simp] theorem takeWord_pend (s : State) :
    (takeWord s).pend = s.pend := rfl
@[simp] theorem takeWord_cfg (s : State) :
    (takeWord s).cfg = s.cfg := rfl
@[simp] theorem takeWord_cmdPort (s : State) :
    (takeWord s).cmdPort = none := rfl
@[simp] theorem takeWord_env (s : State) :
    (takeWord s).env = s.env := rfl
@[simp] theorem takeWord_rsp (s : State) :
    (takeWord s).rsp = s.rsp := rfl
@[simp] theorem takeWord_treq (s : State) :
    (takeWord s).treq = s.treq := rfl
@[simp] theorem takeWord_rspStart (s : State) :
    (takeWord s).rspStart = s.rspStart := rfl
@[simp] theorem takeWord_treqStart (s : State) :
    (takeWord s).treqStart = s.treqStart := rfl

/-! ### `writeChannel` -/

@[simp] theorem writeChannel_curFs (i : Nat) (c : Channel) (s : State) :
    (writeChannel i c s).curFs = s.curFs := rfl
@[simp] theorem writeChannel_ch (i : Nat) (c : Channel) (s : State) :
    (writeChannel i c s).ch = s.ch.set i c := rfl
@[simp] theorem writeChannel_phase (i : Nat) (c : Channel) (s : State) :
    (writeChannel i c s).phase = s.phase := rfl
@[simp] theorem writeChannel_pend (i : Nat) (c : Channel) (s : State) :
    (writeChannel i c s).pend = s.pend := rfl
@[simp] theorem writeChannel_cfg (i : Nat) (c : Channel) (s : State) :
    (writeChannel i c s).cfg = s.cfg := rfl
@[simp] theorem writeChannel_cmdPort (i : Nat) (c : Channel) (s : State) :
    (writeChannel i c s).cmdPort = s.cmdPort := rfl
@[simp] theorem writeChannel_env (i : Nat) (c : Channel) (s : State) :
    (writeChannel i c s).env = s.env := rfl
@[simp] theorem writeChannel_rsp (i : Nat) (c : Channel) (s : State) :
    (writeChannel i c s).rsp = s.rsp := rfl
@[simp] theorem writeChannel_treq (i : Nat) (c : Channel) (s : State) :
    (writeChannel i c s).treq = s.treq := rfl
@[simp] theorem writeChannel_rspStart (i : Nat) (c : Channel) (s : State) :
    (writeChannel i c s).rspStart = s.rspStart := rfl
@[simp] theorem writeChannel_treqStart (i : Nat) (c : Channel) (s : State) :
    (writeChannel i c s).treqStart = s.treqStart := rfl

/-! ### `State.resetWith` -/

@[simp] theorem resetWith_curFs (cfg : Cfg) (row : Row) :
    (State.resetWith cfg row).curFs = row.defaultFs := rfl
@[simp] theorem resetWith_ch (cfg : Cfg) (row : Row) :
    (State.resetWith cfg row).ch = List.replicate row.nChannels { rawCode := 0, fsSnap := row.defaultFs } := rfl
@[simp] theorem resetWith_phase (cfg : Cfg) (row : Row) :
    (State.resetWith cfg row).phase = .idle := rfl
@[simp] theorem resetWith_pend (cfg : Cfg) (row : Row) :
    (State.resetWith cfg row).pend = .begin := rfl
@[simp] theorem resetWith_cfg (cfg : Cfg) (row : Row) :
    (State.resetWith cfg row).cfg = cfg := rfl
@[simp] theorem resetWith_cmdPort (cfg : Cfg) (row : Row) :
    (State.resetWith cfg row).cmdPort = none := rfl
@[simp] theorem resetWith_env (cfg : Cfg) (row : Row) :
    (State.resetWith cfg row).env = [] := rfl
@[simp] theorem resetWith_rsp (cfg : Cfg) (row : Row) :
    (State.resetWith cfg row).rsp = [] := rfl
@[simp] theorem resetWith_treq (cfg : Cfg) (row : Row) :
    (State.resetWith cfg row).treq = [] := rfl
@[simp] theorem resetWith_rspStart (cfg : Cfg) (row : Row) :
    (State.resetWith cfg row).rspStart = 0 := rfl
@[simp] theorem resetWith_treqStart (cfg : Cfg) (row : Row) :
    (State.resetWith cfg row).treqStart = 0 := rfl

/-! ### `beginRun` -/

@[simp] theorem beginRun_curFs (s t : State) : (beginRun s t).curFs = t.curFs := rfl
@[simp] theorem beginRun_ch (s t : State) : (beginRun s t).ch = t.ch := rfl
@[simp] theorem beginRun_phase (s t : State) : (beginRun s t).phase = t.phase := rfl
@[simp] theorem beginRun_pend (s t : State) : (beginRun s t).pend = t.pend := rfl
@[simp] theorem beginRun_cfg (s t : State) : (beginRun s t).cfg = t.cfg := rfl
@[simp] theorem beginRun_cmdPort (s t : State) : (beginRun s t).cmdPort = t.cmdPort := rfl
@[simp] theorem beginRun_env (s t : State) : (beginRun s t).env = s.env := rfl
@[simp] theorem beginRun_rsp (s t : State) : (beginRun s t).rsp = s.rsp := rfl
@[simp] theorem beginRun_treq (s t : State) : (beginRun s t).treq = s.treq := rfl
@[simp] theorem beginRun_rspStart (s t : State) : (beginRun s t).rspStart = s.rsp.length := rfl
@[simp] theorem beginRun_treqStart (s t : State) : (beginRun s t).treqStart = s.treq.length := rfl

/-! ### `State.withFetchWord` -/

@[simp] theorem withFetchWord_curFs (nbits w : Nat) (s : State) :
    (s.withFetchWord nbits w).curFs = s.curFs := rfl
@[simp] theorem withFetchWord_ch (nbits w : Nat) (s : State) :
    (s.withFetchWord nbits w).ch = s.ch := rfl
@[simp] theorem withFetchWord_phase (nbits w : Nat) (s : State) :
    (s.withFetchWord nbits w).phase = .idle := rfl
@[simp] theorem withFetchWord_pend (nbits w : Nat) (s : State) :
    (s.withFetchWord nbits w).pend = s.pend := rfl
@[simp] theorem withFetchWord_cfg (nbits w : Nat) (s : State) :
    (s.withFetchWord nbits w).cfg = s.cfg := rfl
@[simp] theorem withFetchWord_cmdPort (nbits w : Nat) (s : State) :
    (s.withFetchWord nbits w).cmdPort = some (BitVec.ofNat 48 (w % 2 ^ nbits)) := rfl
@[simp] theorem withFetchWord_env (nbits w : Nat) (s : State) :
    (s.withFetchWord nbits w).env = s.env := rfl
@[simp] theorem withFetchWord_rsp (nbits w : Nat) (s : State) :
    (s.withFetchWord nbits w).rsp = s.rsp := rfl
@[simp] theorem withFetchWord_treq (nbits w : Nat) (s : State) :
    (s.withFetchWord nbits w).treq = s.treq := rfl
@[simp] theorem withFetchWord_rspStart (nbits w : Nat) (s : State) :
    (s.withFetchWord nbits w).rspStart = s.rspStart := rfl
@[simp] theorem withFetchWord_treqStart (nbits w : Nat) (s : State) :
    (s.withFetchWord nbits w).treqStart = s.treqStart := rfl

/-! ### `commit`: what each pending update writes, and what none writes -/

@[simp] theorem commit_begin (s : State) : commit .begin s = s := rfl
@[simp] theorem commit_range (f : Millivolts) (s : State) : commit (.range f) s = { s with curFs := f } := rfl
@[simp] theorem commit_volt (c : ChannelIndex) (code : Code) (snap : Millivolts) (s : State) :
    commit (.volt c code snap) s = writeChannel c.toNat { rawCode := code, fsSnap := snap } s := rfl
@[simp] theorem commit_phase (p : Pend) (s : State) : (commit p s).phase = s.phase := by cases p <;> rfl
@[simp] theorem commit_pend (p : Pend) (s : State) : (commit p s).pend = s.pend := by cases p <;> rfl
@[simp] theorem commit_cfg (p : Pend) (s : State) : (commit p s).cfg = s.cfg := by cases p <;> rfl
@[simp] theorem commit_cmdPort (p : Pend) (s : State) : (commit p s).cmdPort = s.cmdPort := by cases p <;> rfl
@[simp] theorem commit_env (p : Pend) (s : State) : (commit p s).env = s.env := by cases p <;> rfl
@[simp] theorem commit_rsp (p : Pend) (s : State) : (commit p s).rsp = s.rsp := by cases p <;> rfl
@[simp] theorem commit_treq (p : Pend) (s : State) : (commit p s).treq = s.treq := by cases p <;> rfl
@[simp] theorem commit_rspStart (p : Pend) (s : State) : (commit p s).rspStart = s.rspStart := by cases p <;> rfl
@[simp] theorem commit_treqStart (p : Pend) (s : State) : (commit p s).treqStart = s.treqStart := by cases p <;> rfl

/-! ### `complete`: step B ends the command whatever the answer -/

@[simp] theorem complete_pend (a : Answer) (s : State) : (complete a s).pend = s.pend := by
  unfold complete; split <;> simp
@[simp] theorem complete_cfg (a : Answer) (s : State) : (complete a s).cfg = s.cfg := by
  unfold complete; split <;> simp
@[simp] theorem complete_cmdPort (a : Answer) (s : State) : (complete a s).cmdPort = s.cmdPort := by
  unfold complete; split <;> simp
@[simp] theorem complete_env (a : Answer) (s : State) : (complete a s).env = s.env := by
  unfold complete; split <;> simp
@[simp] theorem complete_treq (a : Answer) (s : State) : (complete a s).treq = s.treq := by
  unfold complete; split <;> simp
@[simp] theorem complete_rspStart (a : Answer) (s : State) : (complete a s).rspStart = s.rspStart := by
  unfold complete; split <;> simp
@[simp] theorem complete_treqStart (a : Answer) (s : State) : (complete a s).treqStart = s.treqStart := by
  unfold complete; split <;> simp
@[simp] theorem complete_phase (a : Answer) (s : State) : (complete a s).phase = .idle := by
  unfold complete; split <;> simp

/-! ### The parts of a state -/

@[simp] theorem arch_curFs (s : State) : s.arch.curFs = s.curFs := rfl
@[simp] theorem arch_ch (s : State) : s.arch.ch = s.ch := rfl
@[simp] theorem observe_rsp (s : State) : s.observe.rsp = s.rsp.drop s.rspStart := rfl
@[simp] theorem observe_treq (s : State) : s.observe.treq = s.treq.drop s.treqStart := rfl
@[simp] theorem observe_curFs (s : State) : s.observe.curFs = s.curFs := rfl
@[simp] theorem observe_ch (s : State) : s.observe.ch = s.ch := rfl

end Sys2Proof.Machine
end

