-- ==== Sys2Proof/Laws/Ops.lean ====
section
/-! SUPPORT. What each shared operation can do, said once: the inversion lemmas of `settle`, `accept`, `exec`, `stepA`,
`applyReset` and `step`, which later proofs cite instead of unfolding them. -/

namespace Sys2Proof.Machine

/-! ### Configuration -/

theorem selectedRow_iff {c : Cfg} {row : Row} :
    selectedRow c = some row ↔ c.legal = true ∧ c.mt[c.model.toNat]? = some row := by
  unfold selectedRow
  split <;> simp_all

theorem strapsLegal_iff {st : Straps} : st.legal = true ↔ st.model.toNat < 6 := by simp [Straps.legal]

theorem cfgLegal_iff {c : Cfg} : c.legal = true ↔ Table.wf c.mt = true ∧ c.model.toNat < 6 := by simp [Cfg.legal]

/-- A well-formed table has a row for every legal model. -/
theorem Table.row_of_wf {mt : List Row} (h : Table.wf mt = true) {i : Nat} (hi : i < 6) : ∃ row, mt[i]? = some row := by
  simp only [Table.wf, Bool.and_eq_true, beq_iff_eq] at h
  have hl : mt.length = 6 := h.1
  exact ⟨_, List.getElem?_eq_getElem (by omega)⟩

theorem Table.row_wf {mt : List Row} (h : Table.wf mt = true) {i : Nat} {row : Row} (hr : mt[i]? = some row) :
    row.wf = true := by
  simp only [Table.wf, Bool.and_eq_true, List.all_eq_true] at h
  exact h.2 row (List.mem_of_getElem? hr)

theorem selectedRow_wf {c : Cfg} {row : Row} (h : selectedRow c = some row) : row.wf = true := by
  obtain ⟨hl, hr⟩ := selectedRow_iff.1 h
  simp only [Cfg.legal, Bool.and_eq_true] at hl
  exact Table.row_wf hl.1 hr

theorem State.Ready.row_wf {s : State} {row : Row} (h : s.Ready row) : row.wf = true := selectedRow_wf h.row_selected

/-! ### Step B -/

theorem complete_of_ok {a : Answer} (h : a.ok = true) (s : State) :
    complete a s = respond .ok 0 (commit s.pend s) := by simp [complete, h]

theorem complete_of_fail {a : Answer} (h : a.ok = false) (s : State) :
    complete a s = raiseError .transportError s := by simp [complete, h]

theorem settle_of_idle {s : State} (h : s.phase = .idle) : settle s = s := by simp [settle, h]

theorem settle_of_answer {s : State} {w : AnswerWord} {rest : List EnvMove} (hp : s.phase = .wait)
    (he : s.env = .answer w :: rest) : settle s = complete (Answer.ofWord w) { s with env := rest } := by
  simp [settle, hp, he]

theorem settle_of_no_answer {s : State} (h : ∀ w rest, s.env ≠ .answer w :: rest) : settle s = s := by
  unfold settle
  split
  · rename_i w rest _ he
    exact absurd he (h w rest)
  · rfl

/-- All that `settle` can do. -/
theorem settle_cases (s : State) :
    (∃ w rest, s.phase = .wait ∧ s.env = .answer w :: rest ∧
      settle s = complete (Answer.ofWord w) { s with env := rest }) ∨ settle s = s := by
  unfold settle
  split
  · rename_i w rest hp he
    exact .inl ⟨w, rest, hp, he, rfl⟩
  · exact .inr rfl

/-! ### Step A -/

theorem accept_ready {s : State} {row : Row} (k : Row → State → State) (h : s.Ready row) :
    accept k s = .next (settle (k row (takeWord s))) := by simp [accept, h.idle, h.row_selected]

theorem accept_of_wait {s : State} (k : Row → State → State) (h : s.phase = .wait) : accept k s = .next s := by
  simp [accept, h]

/-- All that a command taken from the port can do. -/
theorem accept_cases {k : Row → State → State} {s t : State} (h : accept k s = .next t) :
    (s.phase = .wait ∧ t = s) ∨ ∃ row, s.Ready row ∧ t = settle (k row (takeWord s)) := by
  cases hp : s.phase with
  | wait =>
    rw [accept_of_wait k hp] at h
    exact .inl ⟨rfl, by injection h with h; exact h.symm⟩
  | idle =>
    simp only [accept, hp] at h
    cases hr : selectedRow s.cfg with
    | none => simp [hr] at h
    | some row =>
      simp only [hr, Host.Outcome.next.injEq] at h
      exact .inr ⟨row, ⟨hp, hr⟩, h.symm⟩

/-- Every meaning is its step A under `accept`. -/
theorem exec_eq_accept (i : Instr) (s : State) : exec i s = accept (stepA i) s := by cases i <;> rfl

theorem exec_ready {s : State} {row : Row} (i : Instr) (h : s.Ready row) :
    exec i s = .next (settle (stepA i row (takeWord s))) := by rw [exec_eq_accept, accept_ready _ h]

/-! ### Operands -/

theorem channelOk_iff {row : Row} {ch : ChannelIndex} : channelOk row ch = true ↔ ch.toNat < row.nChannels := by
  simp [channelOk]

theorem setWidth32_inj {a b : Millivolts} (h : (a.setWidth 32 : Operand) = b.setWidth 32) : a = b := by
  have := congrArg BitVec.toNat h
  have ha := a.isLt; have hb := b.isLt
  simp only [BitVec.toNat_setWidth] at this
  exact BitVec.eq_of_toNat_eq (by omega)

/-- A request matches exactly the allowed value it is equal to, on a dual-range row (R130). -/
theorem matchRange_some_iff {row : Row} (hw : row.wf = true) {req : Operand} {k : Fin 2} :
    matchRange row req = some k ↔ row.nRanges = 2 ∧ req = (row.fsMv k).setWidth 32 := by
  unfold matchRange
  rcases Row.ranges_of_wf hw with ⟨h1, -⟩ | ⟨h2, hne, -⟩
  · simp [h1]
  · have hk : k = 0 ∨ k = 1 := by omega
    have hd : (row.fsMv 0).setWidth 32 ≠ ((row.fsMv 1).setWidth 32 : Operand) :=
      fun he => hne (by simpa [Row.fsMv] using setWidth32_inj he)
    simp only [h2, show (2 : Nat) ≠ 1 by decide, if_false, true_and]
    split
    · rename_i he
      rcases hk with rfl | rfl
      · simp [he]
      · simp only [Option.some.injEq, show ((0 : Fin 2) = 1) = False by simp, false_iff]
        exact fun h => hd (he.symm.trans h)
    · rename_i he
      split
      · rename_i he1
        rcases hk with rfl | rfl
        · simp [he]
        · simp [he1]
      · rename_i he1
        rcases hk with rfl | rfl <;> simp [he, he1]

/-! ### What step A of a command can do -/

/-- Step A ends with a response and changes nothing else, or issues one request of its own command. -/
theorem stepA_cases {row : Row} (hw : row.wf = true) (i : Instr) (s : State) :
    (∃ st d, stepA i row s = respond st d s) ∨
      ∃ r p, stepA i row s = issue r p s ∧ allowedRequest s.cfg row i r := by
  cases i with
  | begin => exact .inr ⟨_, _, rfl, rfl⟩
  | setrange req =>
    simp only [stepA, acceptSetrange]
    cases hm : matchRange row req with
    | none => exact .inl ⟨_, _, rfl⟩
    | some k =>
      refine .inr ⟨_, _, rfl, (matchRange_some_iff hw).1 hm |>.1, ?_⟩
      cases row.rangeWidth <;> simp [writeRequest]
  | setvolt ch v =>
    simp only [stepA, acceptSetvolt]
    split
    · rename_i hc
      refine .inr ⟨_, _, rfl, channelOk_iff.1 hc, ?_⟩
      simp only [voltRequest]
      cases row.valWidth <;> simp [writeRequest]
    · exact .inl ⟨_, _, rfl⟩
  | rdcode ch =>
    simp only [stepA, respondField]
    split
    · cases readChannel ch.toNat s <;> exact .inl ⟨_, _, rfl⟩
    · exact .inl ⟨_, _, rfl⟩
  | rdfs ch =>
    simp only [stepA, respondField]
    split
    · cases readChannel ch.toNat s <;> exact .inl ⟨_, _, rfl⟩
    · exact .inl ⟨_, _, rfl⟩

/-! ### Reset -/

theorem sampleStraps_some {mt : List Row} {st : Straps} {cfg : Cfg} {row : Row}
    (h : sampleStraps mt st = some (cfg, row)) :
    cfg = { model := st.model, devAddr := st.devAddr row, mt := mt } ∧ selectedRow cfg = some row := by
  unfold sampleStraps at h
  split at h
  · rename_i hl
    cases hr : mt[st.model.toNat]? with
    | none => simp [hr] at h
    | some r =>
      simp only [hr, Option.map_some, Option.some.injEq, Prod.mk.injEq] at h
      obtain ⟨rfl, rfl⟩ := h
      simp only [Bool.and_eq_true] at hl
      refine ⟨rfl, selectedRow_iff.2 ⟨?_, hr⟩⟩
      simp only [Cfg.legal, Bool.and_eq_true]
      exact ⟨hl.1, hl.2⟩
  · simp at h

theorem applyReset_next {st : Straps} {s t : State} (h : applyReset st s = .next t) :
    ∃ cfg row, sampleStraps s.cfg.mt st = some (cfg, row) ∧
      t = beginRun s (State.resetWith cfg row) := by
  unfold applyReset at h
  split at h
  · simp at h
  · rename_i cfg row he
    exact ⟨cfg, row, he, by injection h with h; exact h.symm⟩

/-! ### One step -/

/-- All that a step that answers a next state can have done. -/
inductive StepCase (s : State) : State → Prop where
  /-- the VRC took a word -/
  | took (w : CommandWord) (row : Row) (hf : fetch s = some w) (hr : s.Ready row) :
      StepCase s (settle (stepAWord w row (takeWord s)))
  /-- no word and no move -/
  | quiet (hf : fetch s = none) (he : s.env = []) : StepCase s s
  /-- the host presented a word -/
  | presented (w : CommandWord) (rest : List EnvMove) (hf : fetch s = none) (he : s.env = .present w :: rest)
      (hc : s.cmdPort = none) : StepCase s { s with env := rest, cmdPort := some w }
  /-- the awaited answer came: step B -/
  | answered (w : AnswerWord) (rest : List EnvMove) (hp : s.phase = .wait) (he : s.env = .answer w :: rest) :
      StepCase s (complete (Answer.ofWord w) { s with env := rest })
  /-- an answer that nothing awaits was ignored -/
  | ignored (m : EnvMove) (rest : List EnvMove) (hf : fetch s = none) (he : s.env = m :: rest)
      (hm : (∃ w, m = .lateAnswer w) ∨ (s.phase = .idle ∧ ∃ w, m = .answer w)) : StepCase s { s with env := rest }
  /-- reset -/
  | resetTo (st : Straps) (rest : List EnvMove) (cfg : Cfg) (row : Row) (hf : fetch s = none)
      (he : s.env = .reset st :: rest) (hs : sampleStraps s.cfg.mt st = some (cfg, row)) :
      StepCase s (beginRun { s with env := rest } (State.resetWith cfg row))

theorem step_of_fetch {s : State} {w : CommandWord} (hf : fetch s = some w) :
    step s = accept (stepAWord w) s := by
  unfold step stepAWord
  rw [hf]
  dsimp only
  cases decode w with
  | none => rfl
  | some i => exact exec_eq_accept i s

theorem step_of_no_fetch {s : State} (hf : fetch s = none) : step s = envStep s := by
  unfold step
  rw [hf]

theorem fetch_some_idle {s : State} {w : CommandWord} (hf : fetch s = some w) : s.phase = .idle ∧ s.cmdPort = some w := by
  unfold fetch at hf
  split at hf <;> simp_all

theorem fetch_of_wait {s : State} (h : s.phase = .wait) : fetch s = none := by simp [fetch, h]

theorem step_cases {s t : State} (h : step s = .next t) : StepCase s t := by
  cases hf : fetch s with
  | some w =>
    rw [step_of_fetch hf] at h
    rcases accept_cases h with ⟨hw, -⟩ | ⟨row, hr, rfl⟩
    · simp [(fetch_some_idle hf).1] at hw
    · exact .took w row hf hr
  | none =>
    rw [step_of_no_fetch hf, envStep] at h
    split at h
    · rename_i he
      injection h with h
      subst h
      exact .quiet hf he
    · rename_i m rest he
      cases m with
      | present w =>
        simp only [envMove, presentWord] at h
        split at h
        · rename_i hc
          injection h with h
          subst h
          exact .presented w rest hf he hc
        · simp at h
      | answer w =>
        simp only [envMove, takeAnswer, Host.Outcome.next.injEq] at h
        subst h
        cases hp : s.phase with
        | wait => simpa [hp] using StepCase.answered (s := s) w rest hp he
        | idle => simpa [hp] using StepCase.ignored (s := s) (.answer w) rest hf he (.inr ⟨hp, w, rfl⟩)
      | lateAnswer w =>
        simp only [envMove, Host.Outcome.next.injEq] at h
        subst h
        exact .ignored (.lateAnswer w) rest hf he (.inl ⟨w, rfl⟩)
      | reset st =>
        obtain ⟨cfg, row, hs, rfl⟩ := applyReset_next h
        exact .resetTo st rest cfg row hf he hs

/-! ### Runs -/

/-- The moves of the current run, when the next reset is known. -/
theorem runMoves_of_append {s : State} {pre post : List EnvMove} {st : Straps} (hp : ∀ m ∈ pre, m.isReset = false)
    (he : s.env = pre ++ .reset st :: post) : s.runMoves = pre := by
  rw [State.runMoves, he, List.takeWhile_append_of_pos (by simpa using hp)]
  simp [EnvMove.isReset]

/-- When the current run is over (spec/00_scope.md R19). -/
theorem over_iff {s : State} :
    s.over = true ↔ s.phase = .idle ∧ s.cmdPort = none ∧ ∀ m ∈ s.runMoves, m.isPresent = false := by
  simp [State.over, and_assoc]

theorem run_zero (s : State) : core.run 0 s = .next s := rfl

theorem run_succ_next {s t : State} (h : step s = .next t) (n : Nat) : core.run (n + 1) s = core.run n t := by
  have hc : core.step s = .next t := h
  simp only [Host.Core.run, hc]

theorem run_succ_refused {s : State} {r : Refusal} (h : step s = .refused r) (n : Nat) :
    core.run (n + 1) s = .refused r := by
  have hc : core.step s = .refused r := h
  simp only [Host.Core.run, hc]

/-- A step answers a next state or is refused: there is no fault. -/
theorem step_next_or_refused (s : State) : (∃ t, step s = .next t) ∨ ∃ r, step s = .refused r := by
  cases h : step s with
  | next t => exact .inl ⟨t, rfl⟩
  | fault f => cases f
  | refused r => exact .inr ⟨r, rfl⟩

end Sys2Proof.Machine
end

