-- ==== Sys2Proof/Laws/PerInstr.lean ====
section
/-! SUPPORT. The statements made per instruction: the encoded word of each command matches the row of the match and mask
table (spec/30_encoding.md R93) that carries its name. -/

namespace Sys2Proof.Laws.MatchesItsRow

/-- The word of the command is accepted by the command's row of R93. -/
def Statement (i : Instr) : Prop := (opcodeRow i).accepts (encode i) = true

/-- A row given by its fields accepts a word given by its fields when the masked fields agree. -/
theorem accepts_of_fields {mask pattern : CommandWord} {o r o' r' : BitVec 4} {c c' : ChannelIndex} {a a' : Operand}
    (om rm : BitVec 4) (cm : ChannelIndex) (am : Operand) (hm : mask = commandWord om rm cm am)
    (hp : pattern = commandWord o' r' c' a') (h : o &&& om = o' ∧ r &&& rm = r' ∧ c &&& cm = c' ∧ a &&& am = a') :
    (OpcodeRow.mk pattern mask).accepts (commandWord o r c a) = true := by
  subst hm hp
  simp only [OpcodeRow.accepts, commandWord_and, beq_iff_eq, commandWord_inj]
  exact h

theorem begin : Statement .begin :=
  accepts_of_fields 0xF 0xF 0xFF 0xFFFFFFFF (o' := 1) (r' := 0) (c' := 0) (a' := 0) (by decide) (by decide) (by decide)

theorem setrange (req : Operand) : Statement (.setrange req) :=
  accepts_of_fields 0xF 0xF 0xFF 0 (o' := 2) (r' := 0) (c' := 0) (a' := 0) (by decide) (by decide) (by simp)

theorem setvolt (ch : ChannelIndex) (v : Operand) : Statement (.setvolt ch v) :=
  accepts_of_fields 0xF 0xF 0 0 (o' := 3) (r' := 0) (c' := 0) (a' := 0) (by decide) (by decide) (by simp)

theorem rdcode (ch : ChannelIndex) : Statement (.rdcode ch) :=
  accepts_of_fields 0xF 0xF 0 0xFFFFFFFF (o' := 4) (r' := 0) (c' := 0) (a' := 0) (by decide) (by decide) (by simp)

theorem rdfs (ch : ChannelIndex) : Statement (.rdfs ch) :=
  accepts_of_fields 0xF 0xF 0 0xFFFFFFFF (o' := 5) (r' := 0) (c' := 0) (a' := 0) (by decide) (by decide) (by simp)

end Sys2Proof.Laws.MatchesItsRow
end

