-- ==== Sys2Proof/Tests/Slice0.lean ====
section
/-! SUPPORT. The model's own tests. Expected results are those of spec/95_test_vectors.md and of the worked examples and
tables of the section files, under MT_REF; each test names its source. After them, one witness per statement with
hypotheses: a concrete state and operands that meet them together. -/

namespace Sys2Proof.Tests

open Sys2Proof.Machine

/-! ### Decoding: words written out from the bit layout of spec/30_encoding.md R90, R91 -/

/-- OP 0001, every other bit 0. -/
theorem test_decode_begin : decode 0b0001_0000_00000000_00000000000000000000000000000000 = some .begin := by decide

/-- OP 0010, ARG = 10000 = 0x2710 (R100). -/
theorem test_decode_setrange :
    decode 0b0010_0000_00000000_00000000000000000010011100010000 = some (.setrange 10000) := by decide

/-- OP 0011, CH = 1, ARG = -5 (R100). -/
theorem test_decode_setvolt :
    decode 0b0011_0000_00000001_11111111111111111111111111111011 = some (.setvolt 1 (-5)) := by decide

/-- OP 0100, CH = 2 (spec/43_accessors.md R170). -/
theorem test_decode_rdcode : decode 0b0100_0000_00000010_00000000000000000000000000000000 = some (.rdcode 2) := by decide

/-- OP 0101, CH = 1 (spec/43_accessors.md R171). -/
theorem test_decode_rdfs : decode 0b0101_0000_00000001_00000000000000000000000000000000 = some (.rdfs 1) := by decide

/-- The illegal words X1 to X7, and B5, A8. -/
theorem test_illegal_words :
    [0x000000000000, 0x600000000000, 0xF00000000000, 0x310000000005, 0x100000000001, 0x200100001388, 0x500000000100,
      0x100100000000, 0x400000000007].map decode = List.replicate 9 none := by decide

/-- The encoder gives the words of R100, and of S1 and S2 for the pseudo-instructions (R101). -/
theorem test_assembler_words :
    [Asm.setvolt 0 2000, .setvolt 1 (-5), .setrange 10000, .rdfs 1, .setv 0 ⟨98, 1⟩, .setv 0 ⟨501, 2⟩].map
        (fun a => (assemble a).map encode) =
      [some 0x3000000007D0, some 0x3001FFFFFFFB, some 0x200000002710, some 0x500100000000, some 0x300000002648,
        some 0x300000001392] := by decide

/-- Request and response words of R120, R130, R150 (worked examples). -/
theorem test_port_words :
    (Request.readByte 0x58).word = 0x158000000 ∧ (Request.writeByte 0x58 0x01 0x11).word = 0x258010011 ∧
      (Request.writeWord 0x58 0x02 0xCCC0).word = 0x35802CCC0 ∧ (Response.mk .transportError 0).word = 0x30000 ∧
      (Response.mk .ok 2000).word = 0x007D0 := by decide

/-! ### Well-formedness: one ill-formed term for each check of spec/10_state.md R32, R33, and of R100, R101 -/

theorem test_wf_reference_rows : mtRef.map Row.wf = List.replicate 6 true := by decide
theorem test_wf1_refuses_five_rows : Table.wf (mtRef.take 5) = false := by decide
theorem test_wf2_refuses_three_channels : ({ rowMB with nChannels := 3 } : Row).wf = false := by decide
theorem test_wf3_refuses_equal_ranges : ({ rowMB with fs1 := 5000 } : Row).wf = false := by decide
theorem test_wf4_refuses_default_out_of_ranges : ({ rowMA with defaultIdx := 1 } : Row).wf = false := by decide
theorem test_wf5_refuses_other_max_code : ({ rowMB with maxCode := 4094 } : Row).wf = false := by decide
theorem test_wf6_refuses_zero_full_scale : ({ rowMB with fs1 := 0 } : Row).wf = false := by decide
theorem test_wf7_refuses_lost_bits : ({ rowMB with packShift := 5 } : Row).wf = false := by decide
theorem test_wf8_refuses_wide_range_data : ({ rowMB with rangeData1 := 256 } : Row).wf = false := by decide
theorem test_wf9_refuses_one_register : ({ rowMB with valReg1 := 0x02 } : Row).wf = false := by decide
theorem test_straps_refuse_model_six : Straps.legal { model := 6, addrOvrEn := false, addrOvr := 0 } = false := by decide
theorem test_asm_refuses_channel_256 : assemble (.rdcode 256) = none := by decide
theorem test_asm_refuses_wide_range : assemble (.setrange 4294967296) = none := by decide
theorem test_asm_refuses_wide_voltage : assemble (.setvolt 0 2147483648) = none := by decide
theorem test_asm_refuses_four_places : assemble (.setv 0 ⟨20000, 4⟩) = none := by decide

/-! ### The datapath: K3, K4, K7; V5, V8, V14, V15, V35; Q1, Q7; W3, W6, W7, W8 -/

theorem test_clamp :
    clampMv (-2147483648) 5000 = 0 ∧ clampMv 5000 5000 = 5000 ∧ clampHi 5000 5000 = false ∧ clampMv 70536 5000 = 5000 := by
  decide

theorem test_scale :
    scale 1250 4095 2500 = 2048 ∧ scale 1500 4095 5000 = 1229 ∧ scale 9999 4095 10000 = 4095 ∧ scale 1 4095 10000 = 0 ∧
      scale 65535 65535 65535 = 65535 := by decide

theorem test_pack : pack 3276 rowMA = 0xCCC0 ∧ pack 191 rowMC = 0xBF := by decide

theorem test_record :
    voltRecord rowMB 6000 5000 = ⟨5000, 5000⟩ ∧ voltRecord rowMC 0 10000 = ⟨0, 5000⟩ ∧
      voltRecord rowMC (-7) 10000 = ⟨0, 5000⟩ ∧ voltRecord rowMC 20 10000 = ⟨20, 10000⟩ := by decide

/-! ### Single steps -/

/-- The state after a reset with strap `model` under MT_REF, with a word presented and the moves to come. -/
def onModel (model : BitVec 3) (row : Row) (w : CommandWord) (env : List EnvMove) : State :=
  { State.resetWith { model := model, devAddr := 0x58, mt := mtRef } row with cmdPort := some w, env := env }

/-- What is observed after one step (spec/00_scope.md R19). -/
def observed (s : State) : Option Observation :=
  match step s with
  | .next t => some t.observe
  | .fault _ => none
  | .refused _ => none

/-- The answer words `{OK=1, BYTE=0x3C}` and `{OK=0}` (spec/30_encoding.md R99). -/
def okWord : AnswerWord := 0x13C
def failWord : AnswerWord := 0x000

/-- P2 step 1. -/
theorem test_begin_ok :
    observed (onModel 1 rowMB 0x100000000000 [.answer okWord]) =
      some ⟨[0x00000], [0x158000000], 5000, [⟨0, 5000⟩, ⟨0, 5000⟩]⟩ := by decide

/-- B3. -/
theorem test_begin_fail :
    observed (onModel 1 rowMB 0x100000000000 [.answer failWord]) =
      some ⟨[0x30000], [0x158000000], 5000, [⟨0, 5000⟩, ⟨0, 5000⟩]⟩ := by decide

/-- G1. -/
theorem test_setrange_commits :
    observed (onModel 1 rowMB 0x200000002710 [.answer okWord]) =
      some ⟨[0x00000], [0x258010011], 10000, [⟨0, 5000⟩, ⟨0, 5000⟩]⟩ := by decide

/-- G6: the comparison is on 32 bits. -/
theorem test_setrange_refuses_70536 :
    observed (onModel 1 rowMB 0x200000011388 [.answer okWord]) =
      some ⟨[0x20000], [], 5000, [⟨0, 5000⟩, ⟨0, 5000⟩]⟩ := by decide

/-- T1. -/
theorem test_setvolt_word_write :
    observed (onModel 0 rowMA 0x3000000007D0 [.answer okWord]) =
      some ⟨[0x00000], [0x35802CCC0], 2500, [⟨2000, 2500⟩, ⟨0, 2500⟩]⟩ := by decide

/-- T17: a byte write, and the zero-write rule restores the snapshot 5000 while `CUR_FS` is 10000. -/
theorem test_setvolt_zero_rule :
    observed { onModel 2 rowMC 0x300100000000 [.answer okWord] with curFs := 10000, ch := [⟨0, 5000⟩, ⟨7500, 10000⟩] } =
      some ⟨[0x00000], [0x258040000], 10000, [⟨0, 5000⟩, ⟨0, 5000⟩]⟩ := by decide

/-- A5. -/
theorem test_rdcode :
    observed { onModel 3 rowMD 0x400000000000 [] with ch := [⟨16174, 5000⟩] } =
      some ⟨[0x03F2E], [], 5000, [⟨16174, 5000⟩]⟩ := by decide

/-- A6: `CH[1]` of a one-channel model does not exist. -/
theorem test_rdcode_one_channel :
    observed (onModel 3 rowMD 0x400100000000 []) = some ⟨[0x10000], [], 5000, [⟨0, 5000⟩]⟩ := by decide

/-- P2 step 6: the snapshot is retained after the range change. -/
theorem test_rdfs_retained :
    observed { onModel 1 rowMB 0x500000000000 [] with curFs := 10000, ch := [⟨3300, 5000⟩, ⟨5010, 10000⟩] } =
      some ⟨[0x01388], [], 10000, [⟨3300, 5000⟩, ⟨5010, 10000⟩]⟩ := by decide

/-- A7. -/
theorem test_rdfs_out_of_range :
    observed (onModel 0 rowMA 0x500200000000 []) = some ⟨[0x10000], [], 2500, [⟨0, 2500⟩, ⟨0, 2500⟩]⟩ := by decide

/-- X1: the all-zero word. -/
theorem test_illegal_word :
    observed (onModel 3 rowMD 0 [.answer okWord]) = some ⟨[0x40000], [], 5000, [⟨0, 5000⟩]⟩ := by decide

/-- The reset values of 2.10 for `MODEL` 5, applied during `WAIT`, with the override of spec/10_state.md R27. -/
theorem test_reset_during_wait :
    (match step { onModel 1 rowMB 0 [.reset ⟨5, true, 0x33⟩] with phase := .wait, pend := .range 10000 } with
      | .next t => some (t.observe, t.phase, t.cfg.devAddr)
      | .fault _ => none
      | .refused _ => none) = some (⟨[], [], 2500, [⟨0, 2500⟩]⟩, .idle, 0x33) := by decide

/-- A run begins at its reset (spec/00_scope.md R19): what was given before is not observed of it, and a word that comes
after the next reset is none of its words. -/
theorem test_second_reset_begins_a_run :
    (match step { onModel 1 rowMB 0 [.reset ⟨5, false, 0⟩, .reset ⟨0, false, 0⟩, .present 0] with
        phase := .wait, rsp := [0x00000], treq := [0x158000000, 0x258010011] } with
      | .next t => some (t.observe, t.over)
      | .fault _ => none
      | .refused _ => none) = some (⟨[], [], 2500, [⟨0, 2500⟩]⟩, true) := by decide

/-- The table word of RDFS 1 runs as the first instruction after reset (A2). -/
theorem test_first_after_reset :
    observed (State.reset.withFetchWord 48 0x500100000000) =
      some ⟨[0x009C4], [], 2500, [⟨0, 2500⟩, ⟨0, 2500⟩]⟩ := by decide

/-! ### Witnesses: the hypotheses of each statement are met together -/

/-- A state that takes the word `w` on row MB, the answer `a` next. -/
def takes (w : CommandWord) (a : AnswerWord) : State := onModel 1 rowMB w [.answer a]

theorem takes_ready (w : CommandWord) (a : AnswerWord) : (takes w a).Ready rowMB where
  idle := rfl
  row_selected := by
    show selectedRow { model := 1, devAddr := 0x58, mt := mtRef } = some rowMB
    decide

theorem takes_inv (w : CommandWord) (a : AnswerWord) : (takes w a).InvFor rowMB where
  row_selected := (takes_ready w a).row_selected
  curFs_allowed := by
    show (5000 : Millivolts) ∈ rowMB.allowedFs
    decide
  ch_length := rfl
  ch_ok := by
    intro c hc
    obtain rfl : c = ⟨0, 5000⟩ := List.eq_of_mem_replicate (n := 2) hc
    exact ⟨by decide, Nat.zero_le _⟩
  pend_ok := by intro h; cases h

/-- A state in `WAIT` on row MB with a SETRANGE 10000 latched and the moves `env` to come, a word held. -/
def waits (env : List EnvMove) : State :=
  { onModel 1 rowMB 0x500000000000 env with phase := .wait, pend := .range 10000 }

theorem waits_inv (env : List EnvMove) : (waits env).InvFor rowMB where
  row_selected := (takes_ready 0 0).row_selected
  curFs_allowed := by
    show (5000 : Millivolts) ∈ rowMB.allowedFs
    decide
  ch_length := rfl
  ch_ok := (takes_inv 0 0).ch_ok
  pend_ok := by
    intro _
    show (10000 : Millivolts) ∈ rowMB.allowedFs
    decide

/-- The reset straps of model 4, without override. -/
def strapsME : Straps := ⟨4, false, 0⟩

theorem witness_DecodeAndEncodeAgree : decode 0x30FF80000000 = some (.setvolt 255 (-2147483648)) := by decide

theorem witness_EachCommandIsItsMatchAndMask : (opcodeRow (.setvolt 0 0)).accepts 0x30FFFFFFFFFF = true := by decide

theorem witness_IllegalWordsAreAnsweredAndDoNothing :
    (takes 0x600000000000 okWord).Ready rowMB ∧ (takes 0x600000000000 okWord).cmdPort = some 0x600000000000 ∧
      decode 0x600000000000 = none := ⟨takes_ready _ _, rfl, by decide⟩

theorem witness_StatusValuesStayBelowFive :
    (takes 0 okWord).StatusInv ∧ ∃ t, step (takes 0 okWord) = .next t := ⟨(by intro w h; cases h), _, rfl⟩

theorem witness_RequestWordLayout : ∃ t, step (takes 0x100000000000 okWord) = .next t ∧ t.treq = [0x158000000] :=
  ⟨_, rfl, by decide⟩

theorem witness_RequestsReachOnlyTheRowsLocations :
    selectedRow (takes 0x200000002710 okWord).cfg = some rowMB ∧
      ∃ t, step (takes 0x200000002710 okWord) = .next t ∧ t.treq = [0x258010011] :=
  ⟨(takes_ready _ _).row_selected, _, rfl, by decide⟩

/-- Each clause of the clamp at its bound: -1, 0, `fs`, `fs + 1`. -/
theorem witness_ClampSaturatesTheSignedRequest :
    (-1 : Operand).toInt < 0 ∧ (0 ≤ (0 : Operand).toInt ∧ (0 : Operand).toInt ≤ (5000 : Millivolts).toNat) ∧
      (0 ≤ (5000 : Operand).toInt ∧ (5000 : Operand).toInt ≤ (5000 : Millivolts).toNat) ∧
      ((5000 : Millivolts).toNat : Int) < (5001 : Operand).toInt := by decide

/-- The bounds of R141 to R143: `fs = 1`, and `mvc = fs = 65535` (V35). -/
theorem witness_ScaleIsTheRoundedQuotient :
    (1 ≤ (1 : Millivolts).toNat ∧ (1 : Millivolts).toNat ≤ (1 : Millivolts).toNat) ∧
      (1 ≤ (65535 : Millivolts).toNat ∧ (65535 : Millivolts).toNat ≤ (65535 : Millivolts).toNat) := by decide

theorem witness_ConverterNeverWraps :
    1 ≤ (65535 : Millivolts).toNat ∧ (65535 : Millivolts).toNat ≤ (65535 : Millivolts).toNat := by decide

/-- A tie (V8), an odd full scale, and the named resolutions. -/
theorem witness_TiesRoundUp :
    (1 ≤ (5000 : Millivolts).toNat ∧ (1500 : Millivolts).toNat ≤ (5000 : Millivolts).toNat) ∧
      2 * (1500 * 4095 % 5000) = 5000 ∧ (2501 : Millivolts).toNat % 2 = 1 ∧
      4095 ∈ [255, 4095, 65535] ∧ 5000 ∈ [2500, 5000, 10000] := by decide

/-- A word row with a shift, and the byte row, each at its largest code. -/
theorem witness_PackingLosesNoBit :
    (rowMA.wf = true ∧ (4095 : Code).toNat ≤ rowMA.maxCode.toNat ∧ 3 < rowMA.packShift) ∧
      (rowMC.wf = true ∧ (255 : Code).toNat ≤ rowMC.maxCode.toNat ∧ rowMC.valWidth = .byte) := by decide

theorem witness_RecordingRules :
    rowMD.recKind = .scaled ∧ rowMB.recKind = .millivolt ∧ rowMC.zeroRestores = true ∧ rowMB.zeroRestores = false ∧
      (0 : Operand).toInt ≤ 0 ∧ (-7 : Operand).toInt ≤ 0 := by decide

theorem witness_ConversionIsMonotone :
    rowMD.wf = true ∧ 1 ≤ (5000 : Millivolts).toNat ∧ (-2147483648 : Operand).toInt ≤ (2147483647 : Operand).toInt := by
  decide

theorem witness_OutOfRangeRequestsSaturate :
    rowMD.wf = true ∧ rowMD.recKind = .scaled ∧ rowMB.wf = true ∧ rowMB.recKind = .millivolt ∧
      1 ≤ (5000 : Millivolts).toNat ∧ ((5000 : Millivolts).toNat : Int) < (5001 : Operand).toInt ∧
      (-1 : Operand).toInt < 0 := by decide

theorem witness_RoundTripWithinHalfAStep : rowMC.wf = true ∧ 1 ≤ (10000 : Millivolts).toNat := by decide

theorem witness_BeginReadsOnceAndKeepsState :
    (takes 0x100000000000 okWord).Ready rowMB ∧ (takes 0x100000000000 okWord).env = .answer okWord :: [] :=
  ⟨takes_ready _ _, rfl⟩

/-- Both clauses: an allowed value with an answer at hand; a value that is neither, and a single-range row. -/
theorem witness_SetrangeValidatesThenCommits :
    ((takes 0x200000002710 okWord).Ready rowMB ∧ rowMB.nRanges = 2 ∧
        (takes 0x200000002710 okWord).env = .answer okWord :: []) ∧
      (∀ k : Fin 2, (7000 : Operand) ≠ (rowMB.fsMv k).setWidth 32) ∧ rowMA.nRanges = 1 :=
  ⟨⟨takes_ready _ _, rfl, rfl⟩, by decide, rfl⟩

/-- Both clauses at the bound: channel 1 and channel 2 of a two-channel row. -/
theorem witness_SetvoltConvertsSendsAndRecords :
    (takes 0x3001000007D0 okWord).Ready rowMB ∧ (1 : ChannelIndex).toNat < rowMB.nChannels ∧
      (takes 0x3001000007D0 okWord).env = .answer okWord :: [] ∧ rowMB.nChannels ≤ (2 : ChannelIndex).toNat :=
  ⟨takes_ready _ _, by decide, rfl, by decide⟩

theorem witness_RdcodeAnswersTheRecord :
    (takes 0x400100000000 okWord).Ready rowMB ∧ (takes 0x400100000000 okWord).ch.length = rowMB.nChannels ∧
      (1 : ChannelIndex).toNat < rowMB.nChannels ∧ rowMB.nChannels ≤ (2 : ChannelIndex).toNat :=
  ⟨takes_ready _ _, rfl, by decide, by decide⟩

theorem witness_RdfsAnswersTheSnapshot :
    (takes 0x500100000000 okWord).Ready rowMB ∧ (takes 0x500100000000 okWord).ch.length = rowMB.nChannels ∧
      (1 : ChannelIndex).toNat < rowMB.nChannels ∧ rowMB.nChannels ≤ (2 : ChannelIndex).toNat :=
  ⟨takes_ready _ _, rfl, by decide, by decide⟩

/-- A command that issues a request and takes its answer, and one that issues none. -/
theorem witness_CommandsTakeOneWordAndTheirAnswer :
    (takes 0x100000000000 okWord).Ready rowMB ∧
      (∃ t, exec .begin (takes 0x100000000000 okWord) = .next t ∧ t.treq ≠ (takes 0x100000000000 okWord).treq) ∧
      ∃ t, exec (.rdfs 0) (takes 0x500000000000 okWord) = .next t ∧ t.treq = (takes 0x500000000000 okWord).treq :=
  ⟨takes_ready _ _, ⟨_, rfl, by decide⟩, _, rfl, rfl⟩

theorem witness_FrameOfBeginAndAccessors :
    (∃ t, exec .begin (takes 0 okWord) = .next t) ∧ ∃ t, exec (.rdcode 1) (takes 0 okWord) = .next t :=
  ⟨⟨_, rfl⟩, _, rfl⟩

theorem witness_FrameOfSetrange :
    ∃ t, exec (.setrange 10000) (takes 0 okWord) = .next t ∧ t.curFs ≠ (takes 0 okWord).curFs := ⟨_, rfl, by decide⟩

theorem witness_FrameOfSetvolt :
    ∃ t, exec (.setvolt 1 2000) (takes 0 okWord) = .next t ∧ t.ch ≠ (takes 0 okWord).ch := ⟨_, rfl, by decide⟩

theorem witness_ChannelGuard : (takes 0 okWord).Ready rowMB ∧ rowMB.nChannels ≤ (2 : ChannelIndex).toNat :=
  ⟨takes_ready _ _, by decide⟩

/-- An unsupported and a supported request on a dual-range row. -/
theorem witness_RangeSwitchExclusivity :
    (takes 0 okWord).Ready rowMB ∧ (∃ t, exec (.setrange 7000) (takes 0 okWord) = .next t) ∧
      ((7000 : Operand) ≠ rowMB.fs0.setWidth 32 ∧ (7000 : Operand) ≠ rowMB.fs1.setWidth 32) ∧
      (∃ t, exec (.setrange 10000) (takes 0 okWord) = .next t) ∧ rowMB.nRanges = 2 ∧
      (10000 : Operand) = rowMB.fs1.setWidth 32 :=
  ⟨takes_ready _ _, ⟨_, rfl⟩, by decide, ⟨_, rfl⟩, rfl, by decide⟩

/-- A transport error of one step from `IDLE`, and of step B from `WAIT`; a validation error. -/
theorem witness_ErrorsArePrecise :
    (∃ t, step (takes 0x100000000000 failWord) = .next t ∧ t.rsp = [] ++ [Response.word ⟨.transportError, 0⟩]) ∧
      (∃ t, step (waits [.answer failWord]) = .next t ∧ t.rsp = [] ++ [Response.word ⟨.transportError, 0⟩]) ∧
      ∃ t, step (takes 0x400200000000 okWord) = .next t ∧ t.rsp = [] ++ [Response.word ⟨.channelError, 0⟩] :=
  ⟨⟨_, rfl, by decide⟩, ⟨_, rfl, by decide⟩, _, rfl, by decide⟩

/-- Each clause: an illegal word, a channel out of bounds, an unsupported range, a failed request. -/
theorem witness_ErrorPriority :
    (takes 0 okWord).Ready rowMB ∧ (takes 0 okWord).cmdPort = some 0 ∧ decode 0 = none ∧
      (rowMB.nChannels ≤ (2 : ChannelIndex).toNat ∧ decode 0x300200000064 = some (.setvolt 2 100)) ∧
      (decode 0x200000001B58 = some (.setrange 7000) ∧ ∀ k : Fin 2, (7000 : Operand) ≠ (rowMB.fsMv k).setWidth 32) ∧
      ∃ t, step (takes 0x100000000000 failWord) = .next t ∧ t.rsp = [] ++ [Response.word ⟨.transportError, 0⟩] :=
  ⟨takes_ready _ _, rfl, by decide, by decide, by decide, _, rfl, by decide⟩

/-- A step that gives each of the four errors, from a state that meets the invariant. -/
theorem witness_EachErrorHasItsCause :
    (∀ w a, (takes w a).InvFor rowMB) ∧
      [0x300200000064, 0x200000001B58, 0x100000000000, 0].map
          (fun w => (observed (takes w failWord)).map Observation.rsp) =
        [Status.channelError, .configurationError, .transportError, .illegalCommand].map
          (fun st => some [Response.word ⟨st, 0⟩]) := ⟨takes_inv, by decide⟩

theorem witness_OneRequestPerValidCommand :
    (takes 0 okWord).Ready rowMB ∧ (rowMB.nRanges = 2 ∧ ∃ k : Fin 2, (10000 : Operand) = (rowMB.fsMv k).setWidth 32) ∧
      ¬ (rowMB.nRanges = 2 ∧ ∃ k : Fin 2, (70536 : Operand) = (rowMB.fsMv k).setWidth 32) ∧
      (1 : ChannelIndex).toNat < rowMB.nChannels ∧ rowMB.nChannels ≤ (2 : ChannelIndex).toNat ∧
      (takes 0 okWord).cmdPort = some 0 ∧ decode 0 = none :=
  ⟨takes_ready _ _, by decide, by decide, by decide, by decide, rfl, by decide⟩

/-- The three clauses: a word taken, an answer taken in `WAIT`, a word presented. -/
theorem witness_OneResponsePerCommand :
    ((∃ t, step (takes 0x500100000000 okWord) = .next t) ∧ fetch (takes 0x500100000000 okWord) = some 0x500100000000) ∧
      ((∃ t, step (waits [.answer okWord]) = .next t) ∧ (waits [.answer okWord]).phase = .wait ∧
        nextMove (waits [.answer okWord]) = some (.answer okWord)) ∧
      ((∃ t, step { State.reset with env := [.present 0] } = .next t) ∧
        fetch { State.reset with env := [.present 0] } = none ∧ State.reset.phase = .idle) :=
  ⟨⟨⟨_, rfl⟩, rfl⟩, ⟨⟨_, rfl⟩, rfl, rfl⟩, ⟨_, rfl⟩, rfl, rfl⟩

/-- With a request (SETVOLT) and without one (RDFS). -/
theorem witness_TwoPhasesGiveTheBigStep :
    (takes 0x3000000007D0 okWord).Ready rowMB ∧ (takes 0x3000000007D0 okWord).cmdPort = some 0x3000000007D0 ∧
      (takes 0x3000000007D0 okWord).env = .answer (Answer.word ⟨true, 0x3C⟩) :: [] ∧
      (bigStep (takes 0 0).cfg rowMB (takes 0 0).arch 0x3000000007D0 ⟨true, 0x3C⟩).trace ≠ [] ∧
      (bigStep (takes 0 0).cfg rowMB (takes 0 0).arch 0x500000000000 ⟨true, 0x3C⟩).trace = [] :=
  ⟨takes_ready _ _, rfl, rfl, by decide, by decide⟩

theorem witness_StepRefinesTheTwoPhaseMachine :
    (∃ t, step (takes 0x100000000000 okWord) = .next t) ∧ ∃ u, phaseStep (takes 0x100000000000 okWord) = .next u :=
  ⟨⟨_, rfl⟩, _, rfl⟩

theorem witness_AcceptLatchesAndCompleteCommits :
    ({ takes 0x100000000000 okWord with env := [] } : State).Ready rowMB ∧ rowMB.nRanges = 2 ∧
      (1 : ChannelIndex).toNat < rowMB.nChannels ∧ (waits [.answer okWord]).phase = .wait ∧
      (waits [.answer okWord]).env = .answer okWord :: [] :=
  ⟨⟨rfl, (takes_ready 0 0).row_selected⟩, rfl, by decide, rfl, rfl⟩

/-- In `WAIT` with a word held, a step that stays there and one that leaves it by the answer. -/
theorem witness_WaitHoldsCommandsAndState :
    (waits []).phase = .wait ∧ (waits []).cmdPort = some 0x500000000000 ∧
      (∃ t, step (waits []) = .next t ∧ t.phase = .wait) ∧
      ∃ t, step (waits [.answer okWord]) = .next t ∧ ∀ st, nextMove (waits [.answer okWord]) ≠ some (.reset st) :=
  ⟨rfl, rfl, ⟨_, rfl, rfl⟩, _, rfl, by intro st h; cases h⟩

theorem witness_SilentTransportHangsForEver :
    (∃ t, step (waits [.answer okWord]) = .next t ∧ t.phase = .idle) ∧
      (∀ m ∈ (waits [.lateAnswer okWord]).env, m.isAnswer = false ∧ m.isReset = false) ∧
      ∃ t, core.run 2 (waits [.lateAnswer okWord]) = .next t := ⟨⟨_, rfl, rfl⟩, by decide, _, rfl⟩

theorem witness_StepRunsTheDecodedCommand :
    (takes 0x500100000000 okWord).phase = .idle ∧ (takes 0x500100000000 okWord).cmdPort = some 0x500100000000 ∧
      decode 0x500100000000 = some (.rdfs 1) := ⟨rfl, rfl, by decide⟩

/-- A reset in `WAIT`, with a legal strap. -/
theorem witness_ResetValues :
    fetch (waits [.reset strapsME]) = none ∧ (waits [.reset strapsME]).env = .reset strapsME :: [] ∧
      Table.wf (waits []).cfg.mt = true ∧ strapsME.model.toNat < 6 ∧
      (waits []).cfg.mt[strapsME.model.toNat]? = some rowME := ⟨rfl, rfl, by decide, by decide, by decide⟩

/-- A reset in `WAIT` with the stale answer right behind it, and a late answer in `WAIT`. -/
theorem witness_ResetDropsThePendingUpdate :
    ((waits [.reset strapsME, .answer okWord]).phase = .wait ∧
      nextMove (waits [.reset strapsME, .answer okWord]) = some (.reset strapsME) ∧
      ∃ t u, step (waits [.reset strapsME, .answer okWord]) = .next t ∧ t.env.head? = some (.answer okWord) ∧
        step t = .next u) ∧
      nextMove (waits [.lateAnswer okWord]) = some (.lateAnswer okWord) ∧
      ∃ t, step (waits [.lateAnswer okWord]) = .next t := ⟨⟨rfl, rfl, _, _, rfl, rfl, rfl⟩, rfl, _, rfl⟩

/-- `MODEL` 6 with a word at the port; a table of five rows; a reset with `MODEL` 7. -/
theorem witness_IllegalConfigurationIsRefused :
    ((onModel 6 rowMB 0 []).phase = .idle ∧ 6 ≤ (onModel 6 rowMB 0 []).cfg.model.toNat ∧
        (onModel 6 rowMB 0 []).cmdPort = some 0) ∧
      Table.wf (mtRef.take 5) = false ∧
      (fetch (waits [.reset ⟨7, false, 0⟩]) = none ∧ 6 ≤ (Straps.mk 7 false 0).model.toNat) :=
  ⟨⟨rfl, by decide, rfl⟩, by decide, rfl, by decide⟩

theorem witness_ResetStateIsAResetOfTheReferenceTable :
    fetch (waits [.reset resetStraps]) = none ∧ (waits [.reset resetStraps]).env = .reset resetStraps :: [] ∧
      (waits [.reset resetStraps]).cfg.mt = mtRef := ⟨rfl, rfl, rfl⟩

theorem witness_ConfigurationConstantUntilReset :
    (∃ t, step (takes 0 okWord) = .next t) ∧ (∀ st, nextMove (takes 0 okWord) ≠ some (.reset st)) ∧
      ∃ t, step (waits [.reset strapsME]) = .next t := ⟨⟨_, rfl⟩, (by intro st h; cases h), _, rfl⟩

theorem witness_StepKeepsTheInvariant :
    (takes 0x3001000007D0 okWord).Inv ∧ (∃ t, step (takes 0x3001000007D0 okWord) = .next t) ∧
      (waits [.answer okWord]).Inv ∧ ∃ t, step (waits [.answer okWord]) = .next t :=
  ⟨⟨_, takes_inv _ _⟩, ⟨_, rfl⟩, ⟨_, waits_inv _⟩, _, rfl⟩

theorem witness_ResetMeetsTheInvariant : selectedRow { model := 4, devAddr := 0x58, mt := mtRef } = some rowME := by
  decide

/-- In one step from `IDLE`, and by step B from `WAIT`. -/
theorem witness_OnlySetrangeWritesCurFs :
    (∃ t, step (takes 0x200000002710 okWord) = .next t ∧ t.curFs ≠ (takes 0x200000002710 okWord).curFs) ∧
      (∀ st, nextMove (takes 0x200000002710 okWord) ≠ some (.reset st)) ∧
      (∃ t, step (waits [.answer okWord]) = .next t ∧ t.curFs ≠ (waits [.answer okWord]).curFs) ∧
      ∀ st, nextMove (waits [.answer okWord]) ≠ some (.reset st) :=
  ⟨⟨_, rfl, by decide⟩, (by intro st h; cases h), ⟨_, rfl, by decide⟩, (by intro st h; cases h)⟩

theorem witness_OnlySetvoltWritesItsChannel :
    (∃ t, step (takes 0x3001000007D0 okWord) = .next t ∧ t.ch[1]? ≠ (takes 0x3001000007D0 okWord).ch[1]?) ∧
      ∀ st, nextMove (takes 0x3001000007D0 okWord) ≠ some (.reset st) :=
  ⟨⟨_, rfl, by decide⟩, (by intro st h; cases h)⟩

theorem witness_SingleRangeNeverChanges :
    (onModel 0 rowMA 0x2000000009C4 []).InvFor rowMA ∧ (∃ t, step (onModel 0 rowMA 0x2000000009C4 []) = .next t) ∧
      (∀ st, nextMove (onModel 0 rowMA 0x2000000009C4 []) ≠ some (.reset st)) ∧ rowMA.nRanges = 1 where
  left :=
    { row_selected := (by decide : selectedRow State.reset.cfg = some rowMA)
      curFs_allowed := by decide
      ch_length := rfl
      ch_ok := by
        intro c hc
        obtain rfl : c = ⟨0, 2500⟩ := List.eq_of_mem_replicate (n := 2) hc
        exact ⟨by decide, Nat.zero_le _⟩
      pend_ok := by intro h; cases h }
  right := ⟨⟨_, rfl⟩, (by intro st h; cases h), rfl⟩

theorem witness_AnswerBytesAreNeverUsed :
    ∃ t, exec .begin (takes 0 okWord) = .next t ∧ t.treq = (takes 0 okWord).treq ++ [0x158000000] ∧
      kindField 0x158000000 = 1 := ⟨_, rfl, by decide, by decide⟩

theorem witness_PendIsNeverReadInIdle :
    (takes 0x3000000007D0 okWord).phase = .idle ∧ ∃ t, step (takes 0x3000000007D0 okWord) = .next t := ⟨rfl, _, rfl⟩

/-- A state that meets the invariant, each of the two refusals, and each way to meet the premises of the next state. -/
theorem witness_RefusalsAreExactlyTwoInputs :
    ((takes 0 okWord).Inv ∧ (∀ w, nextMove (takes 0 okWord) ≠ some (.present w)) ∧
        ∀ st, nextMove (takes 0 okWord) = some (.reset st) → st.model.toNat < 6) ∧
      ({ State.reset with env := [.present 0] } : State).cmdPort = none ∧
      (waits [.present 0]).Inv ∧ step (waits [.present 0]) = .refused .twoCommandsAtOnce ∧
      (waits [.reset ⟨6, false, 0⟩]).Inv ∧ step (waits [.reset ⟨6, false, 0⟩]) = .refused .illegalConfiguration :=
  ⟨⟨⟨_, takes_inv _ _⟩, (by intro w h; cases h), (by intro st h; cases h)⟩, rfl, ⟨_, waits_inv _⟩, rfl,
    ⟨_, waits_inv _⟩, rfl⟩

/-- With a reset after the steps, and with no move left. -/
theorem witness_FinishedRunIsQuiet :
    ({ State.reset with env := [.answer okWord, .reset strapsME] } : State).over = true ∧
      (∀ m ∈ [EnvMove.answer okWord, .reset strapsME].take 1, m.isReset = false) ∧
      (∃ t, core.run 1 { State.reset with env := [.answer okWord, .reset strapsME] } = .next t) ∧
      ∃ t, core.run 3 { State.reset with env := [.answer okWord] } = .next t :=
  ⟨by decide, by decide, ⟨_, rfl⟩, _, rfl⟩

/-- Each clause: a reset in `WAIT`, a command of a run, and a run that is over with a word after the next reset. -/
theorem witness_RunBeginsAtItsReset :
    (nextMove (waits [.reset strapsME]) = some (.reset strapsME) ∧ ∃ t, step (waits [.reset strapsME]) = .next t) ∧
      ((takes 0x100000000000 okWord).RunStartOk ∧ (∃ t, step (takes 0x100000000000 okWord) = .next t) ∧
        ∀ st, nextMove (takes 0x100000000000 okWord) ≠ some (.reset st)) ∧
      (∀ m ∈ [EnvMove.lateAnswer okWord], m.isReset = false) ∧
      ({ State.reset with env := [.lateAnswer okWord] ++ .reset strapsME :: [.present 0] } : State).over = true :=
  ⟨⟨rfl, _, rfl⟩, ⟨⟨Nat.le_refl _, Nat.le_refl _⟩, ⟨_, rfl⟩, by intro st h; cases h⟩, by decide, by decide⟩

end Sys2Proof.Tests
end

section
/-! SUPPORT. The shared layer of the proofs: how step A can end and what becomes of it, the equations of the two-phase
machine, and the step of a move of the environment. -/

namespace Sys2Proof.Machine

/-! ### Taking a word and answering -/

@[simp] theorem takeWord_arch (s : State) : (takeWord s).arch = s.arch := rfl

theorem complete_arch (a : Answer) (s : State) :
    (complete a s).arch = if a.ok then (commit s.pend s).arch else s.arch := by
  unfold complete
  split <;> rfl

@[simp] theorem complete_rsp (a : Answer) (s : State) :
    (complete a s).rsp = s.rsp ++ [Response.word ⟨if a.ok then .ok else .transportError, 0⟩] := by
  cases h : a.ok with
  | true => simp [complete_of_ok h]
  | false => simp [complete_of_fail h]

/-- The two fields of an answer word are read back as they were written (R99). -/
@[simp] theorem ofWord_word (a : Answer) : Answer.ofWord a.word = a := by
  obtain ⟨ok, byte⟩ := a
  have hok : (BitVec.ofBool ok ++ byte).getLsbD 8 = ok := by
    rw [BitVec.getLsbD_append]
    cases ok <;> rfl
  have hbyte : (BitVec.ofBool ok ++ byte).extractLsb' 0 8 = byte := by
    apply BitVec.eq_of_toNat_eq
    rw [extractLsb'_toNat_div, append_toNat_add]
    have := byte.isLt
    omega
  rw [Answer.word, Answer.ofWord, hok, hbyte]

theorem fetch_of_idle {s : State} (h : s.phase = .idle) : fetch s = s.cmdPort := by simp [fetch, h]

/-! ### The end of step A -/

/-- How step A of a word ends from `s`: with a response, or with one request issued. -/
inductive StepAEnd (s : State) : State → Prop where
  | responded (st : Status) (d : BitVec 16) : StepAEnd s (respond st d s)
  | issued (r : Request) (p : Pend) : StepAEnd s (issue r p s)

theorem stepA_ends {row : Row} (hw : row.wf = true) (i : Instr) (s : State) : StepAEnd s (stepA i row s) := by
  rcases stepA_cases hw i s with ⟨st, d, h⟩ | ⟨r, p, h, -⟩
  · exact h ▸ .responded st d
  · exact h ▸ .issued r p

theorem stepAWord_ends {row : Row} (hw : row.wf = true) (w : CommandWord) (s : State) :
    StepAEnd s (stepAWord w row s) := by
  cases hd : decode w with
  | none =>
    rw [stepAWord, hd]
    exact .responded .illegalCommand 0
  | some i =>
    rw [stepAWord, hd]
    exact stepA_ends hw i s

/-- What is left of a command once `settle` has taken an answer at hand: the three ways a taken word can go. -/
inductive SettledEnd (s : State) : State → Prop where
  | responded (st : Status) (d : BitVec 16) : SettledEnd s (respond st d s)
  | answered (r : Request) (p : Pend) (w : AnswerWord) (rest : List EnvMove) (he : s.env = .answer w :: rest) :
      SettledEnd s (complete (Answer.ofWord w) { issue r p s with env := rest })
  | waits (r : Request) (p : Pend) (he : ∀ w rest, s.env ≠ .answer w :: rest) : SettledEnd s (issue r p s)

theorem settle_respond (st : Status) (d : BitVec 16) (s : State) : settle (respond st d s) = respond st d s :=
  settle_of_idle rfl

theorem StepAEnd.settled {s u : State} (h : StepAEnd s u) : SettledEnd s (settle u) := by
  cases h with
  | responded st d => exact settle_respond st d s ▸ .responded st d
  | issued r p =>
    by_cases he : ∃ w rest, s.env = .answer w :: rest
    · obtain ⟨w, rest, he⟩ := he
      rw [settle_of_answer (issue_phase r p s) he]
      exact .answered r p w rest he
    · have he' : ∀ w rest, s.env ≠ .answer w :: rest := fun w rest h => he ⟨w, rest, h⟩
      rw [settle_of_no_answer (s := issue r p s) he']
      exact .waits r p he'

/-! ### The two-phase machine -/

theorem phaseStep_of_fetch {s : State} {w : CommandWord} {row : Row} (hf : fetch s = some w) (hr : s.Ready row) :
    phaseStep s = .next (stepAWord w row (takeWord s)) := by
  unfold phaseStep
  simp [hf, hr.row_selected]

theorem phaseStep_of_no_row {s : State} {w : CommandWord} (hf : fetch s = some w) (hr : selectedRow s.cfg = none) :
    phaseStep s = .refused .illegalConfiguration := by
  unfold phaseStep
  simp [hf, hr]

theorem phaseStep_of_no_fetch {s : State} (hf : fetch s = none) : phaseStep s = envStep s := by
  unfold phaseStep
  rw [hf]

theorem envStep_of_answer {s : State} {w : AnswerWord} {rest : List EnvMove} (hp : s.phase = .wait)
    (he : s.env = .answer w :: rest) : envStep s = .next (complete (Answer.ofWord w) { s with env := rest }) := by
  simp [envStep, he, envMove, takeAnswer, hp]

/-- With the answer at hand, the two-phase machine's step B is what `settle` does. -/
theorem phaseStep_of_answer {s : State} {w : AnswerWord} {rest : List EnvMove} (hp : s.phase = .wait)
    (he : s.env = .answer w :: rest) : phaseStep s = .next (settle s) := by
  rw [phaseStep_of_no_fetch (fetch_of_wait hp), envStep_of_answer hp he, settle_of_answer hp he]

/-- The machine and the two-phase machine do the same when no word is taken. -/
theorem step_eq_phaseStep {s : State} (hf : fetch s = none) : step s = phaseStep s := by
  rw [step_of_no_fetch hf, phaseStep_of_no_fetch hf]

/-- When a word is taken, the machine's step is the two-phase machine's step A followed by `settle` (log 6). -/
theorem step_eq_mapNext_settle {s : State} {w : CommandWord} (hf : fetch s = some w) :
    step s = mapNext settle (phaseStep s) := by
  have hp := (fetch_some_idle hf).1
  cases hr : selectedRow s.cfg with
  | none => simp [step_of_fetch hf, phaseStep_of_no_row hf hr, accept, hp, hr, mapNext]
  | some row =>
    have hready : s.Ready row := ⟨hp, hr⟩
    simp [step_of_fetch hf, phaseStep_of_fetch hf hready, accept_ready _ hready, mapNext]

/-- `settle` does nothing, or exactly the two-phase machine's step B. -/
theorem settle_eq_self_or_phaseStep (u : State) :
    settle u = u ∨ (u.phase = .wait ∧ phaseStep u = .next (settle u)) := by
  rcases settle_cases u with ⟨w, rest, hp, he, -⟩ | h
  · exact .inr ⟨hp, phaseStep_of_answer hp he⟩
  · exact .inl h

/-! ### The next move -/

theorem step_of_nextMove {s : State} {m : EnvMove} (h : nextMove s = some m) :
    ∃ rest, s.env = m :: rest ∧ step s = envMove m { s with env := rest } := by
  cases hf : fetch s with
  | some w => simp [nextMove, hf] at h
  | none =>
    obtain ⟨rest, he⟩ : ∃ rest, s.env = m :: rest := by simpa [nextMove, hf, List.head?_eq_some_iff] using h
    exact ⟨rest, he, by simp [step_of_no_fetch hf, envStep, he]⟩

end Sys2Proof.Machine
end

section
/-! SUPPORT. The statements of spec/00_scope.md about one command: its ports and the atomic big step. -/

namespace Sys2Proof.Machine

/-- Settles O42: `fetch` gives the word at the port, and a taken word runs by `accept` of its step A, as `exec` does. -/
theorem stepRunsTheDecodedCommand : Obligations.StepRunsTheDecodedCommand := by
  intro s w i hp hc hd
  have hf : fetch s = some w := (fetch_of_idle hp).trans hc
  rw [step_of_fetch hf, exec_eq_accept, stepAWord, hd]

/-- Settles O26, by the three ways a taken command can go: a response, an answer at hand, or waiting. -/
theorem commandsTakeOneWordAndTheirAnswer : Obligations.CommandsTakeOneWordAndTheirAnswer := by
  intro i s t row hr h
  rw [exec_ready i hr, Host.Outcome.next.injEq] at h
  have hend : SettledEnd (takeWord s) t := h ▸ (stepA_ends hr.row_wf i (takeWord s)).settled
  cases hend with
  | responded st d => exact ⟨rfl, fun _ => rfl, fun _ => rfl, fun _ _ _ hne => absurd rfl hne⟩
  | answered r p w rest he =>
    have he : s.env = .answer w :: rest := he
    refine ⟨by simp, fun heq => ?_, fun hp => ?_, fun w' rest' he' _ => ?_⟩
    · simp at heq
    · simp at hp
    · rw [he] at he'
      exact ⟨(complete_env _ _).trans (List.cons.inj he').2, complete_phase _ _⟩
  | waits r p he => exact ⟨rfl, fun _ => rfl, fun _ => rfl, fun w rest he' => absurd he' (he w rest)⟩

/-! ### The atomic big step (R15) -/

/-- The big step's result for a command that issued `r` with `p` to commit, once the answer `tau` has come. -/
def bigAnswered (r : Request) (p : Pend) (tau : Answer) (s : State) : BigResult :=
  if tau.ok then (commit p s).arch.respond [r] .ok 0 else s.arch.respond [r] .transportError 0

/-- The end of step A from `s` beside the big step's result for the same word and the answer `tau`. -/
inductive BigStepAgrees (s : State) (tau : Answer) : State → BigResult → Prop where
  | responded (st : Status) (d : BitVec 16) : BigStepAgrees s tau (respond st d s) (s.arch.respond [] st d)
  | issued (r : Request) (p : Pend) : BigStepAgrees s tau (issue r p s) (bigAnswered r p tau s)

theorem bigBegin_agrees (row : Row) (s : State) (tau : Answer) :
    BigStepAgrees s tau (acceptBegin row s) (bigBegin s.cfg s.arch tau) :=
  .issued (.readByte s.cfg.devAddr) .begin

/-- The nested comparisons of R130 are `matchRange`. -/
theorem bigSetrange_eq (cfg : Cfg) (row : Row) (a : Arch) (req : Operand) (tau : Answer) :
    bigSetrange cfg row a req tau =
      (matchRange row req).elim (a.respond [] .configurationError 0) (bigRangeWrite cfg row · a tau) := by
  have h0 : row.fsMv 0 = row.fs0 := rfl
  have h1 : row.fsMv 1 = row.fs1 := rfl
  unfold bigSetrange matchRange
  rw [h0, h1]
  split_ifs <;> rfl

theorem bigSetrange_agrees (req : Operand) (row : Row) (s : State) (tau : Answer) :
    BigStepAgrees s tau (acceptSetrange req row s) (bigSetrange s.cfg row s.arch req tau) := by
  rw [bigSetrange_eq, acceptSetrange]
  cases matchRange row req with
  | none => exact .responded .configurationError 0
  | some k => exact .issued _ (.range (row.fsMv k))

theorem bigSetvolt_agrees (ch : ChannelIndex) (v : Operand) (row : Row) (s : State) (tau : Answer) :
    BigStepAgrees s tau (acceptSetvolt ch v row s) (bigSetvolt s.cfg row s.arch ch v tau) := by
  by_cases hc : ch.toNat < row.nChannels
  · rw [acceptSetvolt, if_pos (channelOk_iff.2 hc), bigSetvolt, if_neg (Nat.not_le.2 hc)]
    exact .issued _ _
  · rw [acceptSetvolt, if_neg (mt channelOk_iff.1 hc), bigSetvolt, if_pos (Nat.not_lt.1 hc)]
    exact .responded .channelError 0

theorem bigRead_agrees (field : Channel → BitVec 16) (ch : ChannelIndex) (row : Row) (s : State) (tau : Answer) :
    BigStepAgrees s tau (respondField field ch row s) (bigRead row s.arch ch field) := by
  by_cases hc : ch.toNat < row.nChannels
  · rw [respondField, if_pos (channelOk_iff.2 hc), bigRead, if_neg (Nat.not_le.2 hc), readChannel, arch_ch]
    cases s.ch[ch.toNat]? with
    | some c => exact .responded .ok (field c)
    | none => exact .responded .channelError 0
  · rw [respondField, if_neg (mt channelOk_iff.1 hc), bigRead, if_pos (Nat.not_lt.1 hc)]
    exact .responded .channelError 0

/-- Step A of any word goes as the big step of R15 says. -/
theorem bigStep_agrees (w : CommandWord) (row : Row) (s : State) (tau : Answer) :
    BigStepAgrees s tau (stepAWord w row s) (bigStep s.cfg row s.arch w tau) := by
  unfold stepAWord bigStep
  cases decode w with
  | none => exact .responded .illegalCommand 0
  | some i =>
    cases i with
    | begin => exact bigBegin_agrees row s tau
    | setrange req => exact bigSetrange_agrees req row s tau
    | setvolt ch v => exact bigSetvolt_agrees ch v row s tau
    | rdcode ch => exact bigRead_agrees _ ch row s tau
    | rdfs ch => exact bigRead_agrees _ ch row s tau

theorem bigAnswered_arch (r : Request) (p : Pend) (tau : Answer) (s : State) :
    (bigAnswered r p tau s).arch = if tau.ok then (commit p s).arch else s.arch := by
  unfold bigAnswered
  split <;> rfl

theorem bigAnswered_rsp (r : Request) (p : Pend) (tau : Answer) (s : State) :
    (bigAnswered r p tau s).rsp = ⟨if tau.ok then .ok else .transportError, 0⟩ := by
  unfold bigAnswered
  split <;> rfl

theorem bigAnswered_trace (r : Request) (p : Pend) (tau : Answer) (s : State) :
    (bigAnswered r p tau s).trace = [r] := by
  unfold bigAnswered
  split <;> rfl

/-- A request issued and then answered is a completed command, whatever the answer. -/
theorem completed_bigAnswered (r : Request) (p : Pend) (tau : Answer) (rest : List EnvMove) (s : State) :
    Completed s (complete tau { issue r p s with env := rest }) (bigAnswered r p tau s) where
  arch := by
    rw [complete_arch, bigAnswered_arch]
    cases p <;> rfl
  cfg := by simp
  phase := by simp
  treq := by simp [bigAnswered_trace]
  rsp := by rw [complete_rsp, bigAnswered_rsp]; rfl

/-- Settles O37: step A agrees with the big step, and `settle` and the two-phase machine's next step are the same
step B. -/
theorem twoPhasesGiveTheBigStep : Obligations.TwoPhasesGiveTheBigStep := by
  intro s row w tau rest hr hc he
  have hf : fetch s = some w := (fetch_of_idle hr.idle).trans hc
  have hstep : step s = .next (settle (stepAWord w row (takeWord s))) := by rw [step_of_fetch hf, accept_ready _ hr]
  have hphase := phaseStep_of_fetch hf hr
  have hagree : BigStepAgrees (takeWord s) tau (stepAWord w row (takeWord s)) (bigStep s.cfg row s.arch w tau) :=
    bigStep_agrees w row (takeWord s) tau
  refine ⟨_, hstep, ?_⟩
  generalize stepAWord w row (takeWord s) = u at hphase hagree
  generalize bigStep s.cfg row s.arch w tau = b at hagree
  cases hagree with
  | responded st d =>
    rw [settle_respond]
    exact ⟨⟨rfl, rfl, rfl, (List.append_nil _).symm, rfl⟩, fun _ => ⟨rfl, hphase⟩, fun hne => absurd rfl hne⟩
  | issued r p =>
    have hset := settle_of_answer (issue_phase r p (takeWord s)) he
    rw [ofWord_word] at hset
    have hB : phaseStep (issue r p (takeWord s)) = .next (settle (issue r p (takeWord s))) :=
      phaseStep_of_answer rfl he
    have hdone := completed_bigAnswered r p tau rest (takeWord s)
    rw [← hset] at hdone
    obtain ⟨harch, hcfg, hidle, htreq, hrsp⟩ := hdone
    refine ⟨⟨harch, hcfg, hidle, htreq, hrsp⟩, fun hnil => ?_, fun _ => ?_⟩
    · simp [bigAnswered_trace] at hnil
    · exact ⟨by simp [hset], _, hphase, rfl, rfl, rfl, hB⟩

/-- Settles O38: without a word the two machines are the same; with one, the machine's step is the other's followed by
`settle`, which does nothing or is the other's step B. -/
theorem stepRefinesTheTwoPhaseMachine : Obligations.StepRefinesTheTwoPhaseMachine := by
  refine ⟨fun s t h => ?_, fun s u h => ?_, fun s r => ?_⟩
  · cases hf : fetch s with
    | none => exact .inl (step_eq_phaseStep hf ▸ h)
    | some w =>
      rw [step_eq_mapNext_settle hf] at h
      cases hA : phaseStep s with
      | fault f => cases f
      | refused r => simp [hA, mapNext] at h
      | next u =>
        obtain rfl : settle u = t := by simpa [hA, mapNext] using h
        rcases settle_eq_self_or_phaseStep u with hs | ⟨hp, hB⟩
        · exact .inl (by rw [hs])
        · exact .inr ⟨u, rfl, hp, hB⟩
  · cases hf : fetch s with
    | none => exact .inl (step_eq_phaseStep hf ▸ h)
    | some w =>
      have hstep : step s = .next (settle u) := by rw [step_eq_mapNext_settle hf, h, mapNext]
      rcases settle_eq_self_or_phaseStep u with hs | ⟨hp, hB⟩
      · exact .inl (by rw [hstep, hs])
      · exact .inr ⟨hp, hstep.trans hB.symm⟩
  · cases hf : fetch s with
    | none => rw [step_eq_phaseStep hf]
    | some w =>
      rw [step_eq_mapNext_settle hf]
      cases phaseStep s <;> simp [mapNext]

end Sys2Proof.Machine
end

section
/-! SUPPORT. The statements of spec/00_scope.md R19 about runs: where a run begins, and that a finished one is quiet. -/

namespace Sys2Proof.Machine

/-! ### A finished run -/

theorem runMoves_cons {s : State} {m : EnvMove} {rest : List EnvMove} (he : s.env = m :: rest)
    (hm : m.isReset = false) : s.runMoves = m :: ({ s with env := rest } : State).runMoves := by
  simp [State.runMoves, he, hm]

/-- A step of a finished run before which no reset comes drops one move that nothing awaits, if there is one. -/
theorem step_of_over {s : State} (ho : s.over = true) (hr : ∀ m ∈ s.env.head?, m.isReset = false) :
    ∃ t, step s = .next t ∧ t.over = true ∧ t.observe = s.observe ∧ t.env = s.env.tail := by
  obtain ⟨hp, hc, hm⟩ := over_iff.1 ho
  have hstep : step s = envStep s := step_of_no_fetch ((fetch_of_idle hp).trans hc)
  cases he : s.env with
  | nil => exact ⟨s, by simp [hstep, envStep, he], ho, rfl, he⟩
  | cons m rest =>
    have hreset : m.isReset = false := hr m (by simp [he])
    rw [runMoves_cons he hreset] at hm
    have hover : ({ s with env := rest } : State).over = true :=
      over_iff.2 ⟨hp, hc, fun m' h => hm m' (List.mem_cons_of_mem m h)⟩
    refine ⟨{ s with env := rest }, ?_, hover, rfl, rfl⟩
    cases m with
    | present w => simpa [EnvMove.isPresent] using hm (.present w) List.mem_cons_self
    | reset st => simp [EnvMove.isReset] at hreset
    | answer w => simp [hstep, envStep, he, envMove, takeAnswer, hp]
    | lateAnswer w => simp [hstep, envStep, he, envMove]

/-- Settles O57, by induction on the number of steps. -/
theorem finishedRunIsQuiet : Obligations.FinishedRunIsQuiet := by
  intro n
  induction n with
  | zero =>
    intro s t ho _ h
    obtain rfl : s = t := Host.Outcome.next.inj ((run_zero s).symm.trans h)
    exact ⟨ho, rfl⟩
  | succ n ih =>
    intro s t ho hr h
    have hsplit : (∀ m ∈ s.env.head?, m.isReset = false) ∧ ∀ m ∈ s.env.tail.take n, m.isReset = false := by
      cases he : s.env with
      | nil => simp
      | cons m rest => simpa [he] using hr
    obtain ⟨hhead, htail⟩ := hsplit
    obtain ⟨u, hu, hou, hobs, henv⟩ := step_of_over ho hhead
    rw [run_succ_next hu] at h
    obtain ⟨hot, hobt⟩ := ih u t hou (henv ▸ htail) h
    exact ⟨hot, hobt.trans hobs⟩

/-! ### The records of a run -/

/-- From `s` to `t` the records only grew, and the current run begins where it began. -/
structure RecordsGrow (s t : State) : Prop where
  rspStart : t.rspStart = s.rspStart
  treqStart : t.treqStart = s.treqStart
  rsp : s.rsp <+: t.rsp
  treq : s.treq <+: t.treq

theorem SettledEnd.recordsGrow {s t : State} (h : SettledEnd s t) : RecordsGrow s t := by
  cases h with
  | responded st d => exact ⟨rfl, rfl, List.prefix_append _ _, List.prefix_rfl⟩
  | answered r p w rest he => constructor <;> simp
  | waits r p he => exact ⟨rfl, rfl, List.prefix_rfl, List.prefix_append _ _⟩

theorem step_recordsGrow {s t : State} (h : step s = .next t) (hr : ∀ st, nextMove s ≠ some (.reset st)) :
    RecordsGrow s t := by
  cases step_cases h with
  | took w row hf hready =>
    obtain ⟨h1, h2, h3, h4⟩ := (stepAWord_ends hready.row_wf w (takeWord s)).settled.recordsGrow
    exact ⟨h1, h2, h3, h4⟩
  | quiet hf he => exact ⟨rfl, rfl, List.prefix_rfl, List.prefix_rfl⟩
  | presented w rest hf he hc => exact ⟨rfl, rfl, List.prefix_rfl, List.prefix_rfl⟩
  | answered w rest hp he => constructor <;> simp
  | ignored m rest hf he hm => exact ⟨rfl, rfl, List.prefix_rfl, List.prefix_rfl⟩
  | resetTo st rest cfg row hf he hs => exact absurd (by simp [nextMove, hf, he]) (hr st)

theorem runStart_of_reset {s t : State} {st : Straps} (hm : nextMove s = some (.reset st)) (h : step s = .next t) :
    t.RunStartOk ∧ t.observe = { rsp := [], treq := [], curFs := t.curFs, ch := t.ch } := by
  obtain ⟨rest, -, hstep⟩ := step_of_nextMove hm
  obtain ⟨cfg, row, -, rfl⟩ := applyReset_next (hstep.symm.trans h)
  exact ⟨⟨Nat.le_refl _, Nat.le_refl _⟩, by simp [State.observe]⟩

/-- What a growing record adds is added to the observation of a run that begins within the records. -/
theorem RecordsGrow.observe {s t : State} (h : RecordsGrow s t) (hs : s.RunStartOk) :
    t.RunStartOk ∧ ∃ rsp treq,
      t.rsp = s.rsp ++ rsp ∧ t.observe.rsp = s.observe.rsp ++ rsp ∧
      t.treq = s.treq ++ treq ∧ t.observe.treq = s.observe.treq ++ treq := by
  obtain ⟨rsp, hrsp⟩ := h.rsp
  obtain ⟨treq, htreq⟩ := h.treq
  refine ⟨⟨?_, ?_⟩, rsp, treq, hrsp.symm, ?_, htreq.symm, ?_⟩
  · rw [h.rspStart]
    exact hs.rsp.trans h.rsp.length_le
  · rw [h.treqStart]
    exact hs.treq.trans h.treq.length_le
  · rw [observe_rsp, observe_rsp, h.rspStart, ← hrsp, List.drop_append_of_le_length hs.rsp]
  · rw [observe_treq, observe_treq, h.treqStart, ← htreq, List.drop_append_of_le_length hs.treq]

/-- Settles O58: a reset sets the marks to the records' lengths, every other step only makes the records grow, and the
moves of the run are those before the next reset. -/
theorem runBeginsAtItsReset : Obligations.RunBeginsAtItsReset := by
  refine ⟨fun s t st hm h => runStart_of_reset hm h, fun s t hs h hr => (step_recordsGrow h hr).observe hs, ?_⟩
  intro s pre post st hpre he
  rw [over_iff, runMoves_of_append hpre he]

end Sys2Proof.Machine
end

section
/-! SUPPORT. What a step can write to the architectural state, said once: which update each command latches, that a
taken word or step B commits such an update or keeps everything, and that a step latches nothing else. -/

namespace Sys2Proof.Machine

/-! ### What a command latches -/

/-- The update that the command latches when it issues its request, under the full scale `fs`
(spec/70_reset_and_hazards.md R216); the accessors latch none. -/
inductive Latches (row : Row) (fs : Millivolts) : Instr → Pend → Prop where
  | begin : Latches row fs .begin .begin
  | range (req : Operand) (k : Fin 2) (hk : matchRange row req = some k) :
      Latches row fs (.setrange req) (.range (row.fsMv k))
  | volt (ch : ChannelIndex) (v : Operand) (hc : ch.toNat < row.nChannels) :
      Latches row fs (.setvolt ch v) (.volt ch (voltRecord row v fs).rawCode (voltRecord row v fs).fsSnap)

@[simp] theorem respondField_phase (field : Channel → BitVec 16) (ch : ChannelIndex) (row : Row) (s : State) :
    (respondField field ch row s).phase = .idle := by
  unfold respondField
  split
  · cases readChannel ch.toNat s <;> rfl
  · rfl

/-- A command whose step A waits has latched an update of its own. -/
theorem stepA_latches {row : Row} {i : Instr} {s : State} (h : (stepA i row s).phase = .wait) :
    Latches row s.curFs i (stepA i row s).pend := by
  cases i with
  | begin => exact .begin
  | setrange req =>
    simp only [stepA, acceptSetrange] at h ⊢
    cases hk : matchRange row req with
    | none => simp [hk] at h
    | some k => exact .range req k hk
  | setvolt ch v =>
    simp only [stepA, acceptSetvolt] at h ⊢
    by_cases hc : channelOk row ch = true
    · rw [if_pos hc]
      exact .volt ch v (channelOk_iff.1 hc)
    · simp [hc] at h
  | rdcode ch => simp [stepA] at h
  | rdfs ch => simp [stepA] at h

/-- A word whose step A waits decodes, and has latched an update of its command. -/
theorem stepAWord_latches {row : Row} {w : CommandWord} {s : State} (h : (stepAWord w row s).phase = .wait) :
    ∃ i, decode w = some i ∧ Latches row s.curFs i (stepAWord w row s).pend := by
  unfold stepAWord at h ⊢
  cases hd : decode w with
  | none => simp [hd, acceptIllegal] at h
  | some i =>
    simp only [hd] at h
    exact ⟨i, rfl, stepA_latches h⟩

/-- What an update latched by a command may commit is within the bounds of R36 to R39. -/
theorem Latches.ok {row : Row} {fs : Millivolts} {i : Instr} {p : Pend} (h : Latches row fs i p) (hw : row.wf = true)
    (hf : fs ∈ row.allowedFs) : Pend.Ok row p := by
  cases h with
  | begin => trivial
  | range req k hk =>
    obtain ⟨h2, -⟩ := (matchRange_some_iff hw).1 hk
    simp only [Pend.Ok, Row.fsMv, Row.allowedFs, h2]
    split <;> simp
  | volt ch v hc => exact ⟨hc, voltRecord_ok hw v hf⟩

/-- A full scale is latched by the SETRANGE that asks for it. -/
theorem Latches.setrange {row : Row} {fs f : Millivolts} {i : Instr} (h : Latches row fs i (.range f))
    (hw : row.wf = true) : i = .setrange (f.setWidth 32) := by
  cases h with
  | range req k hk => rw [((matchRange_some_iff hw).1 hk).2]

/-- A channel entry is latched by a SETVOLT of that channel. -/
theorem Latches.setvolt {row : Row} {fs snap : Millivolts} {i : Instr} {ch : ChannelIndex} {code : Code}
    (h : Latches row fs i (.volt ch code snap)) : ∃ v, i = .setvolt ch v := by
  cases h with
  | volt _ v hc => exact ⟨v, rfl⟩

/-! ### The end of a taken word, with what it latched -/

/-- The word at the port of `s` was taken and led to `t`; if it issued a request, it latched an update that `L`
allows. -/
structure TakenEnd (L : Pend → Prop) (s t : State) : Prop where
  ends : SettledEnd (takeWord s) t
  latched : t.treq ≠ s.treq → L t.pend

theorem settle_pend (s : State) : (settle s).pend = s.pend := by
  rcases settle_cases s with ⟨w, rest, -, -, h⟩ | h <;> simp [h]

theorem settle_treq (s : State) : (settle s).treq = s.treq := by
  rcases settle_cases s with ⟨w, rest, -, -, h⟩ | h <;> simp [h]

theorem StepAEnd.taken {L : Pend → Prop} {s u : State} (h : StepAEnd (takeWord s) u) (hl : u.phase = .wait → L u.pend) :
    TakenEnd L s (settle u) where
  ends := h.settled
  latched hne := by
    rw [settle_pend]
    rw [settle_treq] at hne
    cases h with
    | responded st d => exact absurd rfl hne
    | issued r p => exact hl rfl

/-- All that `exec` of a command can do: nothing in `WAIT`, else what its step A latches. -/
theorem exec_cases {i : Instr} {s t : State} (h : exec i s = .next t) :
    (s.phase = .wait ∧ t = s) ∨ ∃ row, s.Ready row ∧ TakenEnd (Latches row s.curFs i) s t := by
  rw [exec_eq_accept] at h
  rcases accept_cases h with hwait | ⟨row, hr, rfl⟩
  · exact .inl hwait
  · exact .inr ⟨row, hr, (stepA_ends hr.row_wf i (takeWord s)).taken fun hp => stepA_latches hp⟩

theorem TakenEnd.cfg {L : Pend → Prop} {s t : State} (h : TakenEnd L s t) : t.cfg = s.cfg := by
  cases h.ends <;> simp

/-- A taken word that may latch nothing only gives a response. -/
theorem TakenEnd.responded {L : Pend → Prop} {s t : State} (h : TakenEnd L s t) (hL : ∀ p, ¬ L p) :
    ∃ st d, t = respond st d (takeWord s) := by
  cases h with
  | mk ends latched =>
    cases ends with
    | responded st d => exact ⟨st, d, rfl⟩
    | answered r p w rest he => exact absurd (latched (by simp)) (hL _)
    | waits r p he => exact absurd (latched (by simp)) (hL _)

/-! ### What is committed -/

/-- From `s` to `t` the architectural state was kept, or an update that `L` allows was committed on the answer `ok`, with
the response `OK` (spec/70_reset_and_hazards.md R216). -/
inductive ArchChange (L : Pend → Prop) (s t : State) : Prop where
  | kept (harch : t.arch = s.arch)
  | committed (p : Pend) (hp : L p) (w : AnswerWord) (rest : List EnvMove) (he : s.env = .answer w :: rest)
      (hok : w.getLsbD 8 = true) (hrsp : t.rsp = s.rsp ++ [Response.word ⟨.ok, 0⟩])
      (harch : t.arch = (commit p s).arch)

/-- What a commit makes of the architectural state depends on nothing else of the state. -/
theorem commit_arch_congr (p : Pend) {s u : State} (h : u.arch = s.arch) : (commit p u).arch = (commit p s).arch := by
  have hfs : u.curFs = s.curFs := congrArg Arch.curFs h
  have hch : u.ch = s.ch := congrArg Arch.ch h
  cases p <;> simp [State.arch, hfs, hch]

/-- Step B commits what is latched, or keeps the architectural state. -/
theorem archChange_complete {L : Pend → Prop} {s u : State} {w : AnswerWord} {rest : List EnvMove}
    (harch : u.arch = s.arch) (hrsp : u.rsp = s.rsp) (hp : L u.pend) (he : s.env = .answer w :: rest) :
    ArchChange L s (complete (Answer.ofWord w) u) := by
  cases hok : w.getLsbD 8 with
  | true =>
    exact .committed u.pend hp w rest he hok (by simp [hrsp, hok])
      (by simpa [complete_arch, hok] using commit_arch_congr u.pend harch)
  | false => exact .kept (by rw [complete_arch, ofWord_ok, hok]; exact harch)

theorem TakenEnd.archChange {L : Pend → Prop} {s t : State} (h : TakenEnd L s t) : ArchChange L s t := by
  cases h with
  | mk ends latched =>
    cases ends with
    | responded st d => exact .kept rfl
    | answered r p w rest he =>
      have hp : L p := by simpa using latched (by simp)
      exact archChange_complete rfl rfl hp he
    | waits r p he => exact .kept rfl

/-- A `CUR_FS` that differs was committed by a SETRANGE update. -/
theorem ArchChange.curFs {L : Pend → Prop} {s t : State} (h : ArchChange L s t) (hne : t.curFs ≠ s.curFs) :
    L (.range t.curFs) ∧ ∃ w rest, s.env = .answer w :: rest ∧ w.getLsbD 8 = true ∧
      t.rsp = s.rsp ++ [Response.word ⟨.ok, 0⟩] := by
  cases h with
  | kept harch => exact absurd (congrArg Arch.curFs harch) hne
  | committed p hp w rest he hok hrsp harch =>
    have hfs : t.curFs = (commit p s).curFs := congrArg Arch.curFs harch
    cases p with
    | begin => exact absurd hfs hne
    | volt ch code snap => exact absurd hfs hne
    | range f =>
      obtain rfl : t.curFs = f := hfs
      exact ⟨hp, w, rest, he, hok, hrsp⟩

/-- A channel file that differs was committed by a SETVOLT update. -/
theorem ArchChange.ch {L : Pend → Prop} {s t : State} (h : ArchChange L s t) (hne : t.ch ≠ s.ch) :
    ∃ ch code snap, L (.volt ch code snap) ∧ t.ch = s.ch.set ch.toNat { rawCode := code, fsSnap := snap } ∧
      ∃ w rest, s.env = .answer w :: rest ∧ w.getLsbD 8 = true ∧ t.rsp = s.rsp ++ [Response.word ⟨.ok, 0⟩] := by
  cases h with
  | kept harch => exact absurd (congrArg Arch.ch harch) hne
  | committed p hp w rest he hok hrsp harch =>
    have hch : t.ch = (commit p s).ch := congrArg Arch.ch harch
    cases p with
    | begin => exact absurd hch hne
    | range f => exact absurd hch hne
    | volt ch code snap => exact ⟨ch, code, snap, hp, hch, w, rest, he, hok, hrsp⟩

theorem ArchChange.curFs_eq {L : Pend → Prop} {s t : State} (h : ArchChange L s t) (hL : ∀ f, ¬ L (.range f)) :
    t.curFs = s.curFs := by
  by_contra hne
  exact hL _ (h.curFs hne).1

theorem ArchChange.ch_eq {L : Pend → Prop} {s t : State} (h : ArchChange L s t)
    (hL : ∀ ch code snap, ¬ L (.volt ch code snap)) : t.ch = s.ch := by
  by_contra hne
  obtain ⟨ch, code, snap, hp, -⟩ := h.ch hne
  exact hL ch code snap hp

/-! ### One step -/

/-- The updates that a step from `s` can commit: the one `s` has latched in `WAIT`, and those of the command it takes. -/
inductive State.Pending (s : State) : Pend → Prop where
  | latched (p : Pend) (hw : s.phase = .wait) (hp : s.pend = p) : s.Pending p
  | taken (w : CommandWord) (i : Instr) (row : Row) (p : Pend) (hf : fetch s = some w) (hr : s.Ready row)
      (hd : decode w = some i) (hl : Latches row s.curFs i p) : s.Pending p

theorem takenEnd_stepAWord {s : State} {w : CommandWord} {row : Row} (hf : fetch s = some w) (hr : s.Ready row) :
    TakenEnd s.Pending s (settle (stepAWord w row (takeWord s))) :=
  (stepAWord_ends hr.row_wf w (takeWord s)).taken fun hp =>
    let ⟨i, hd, hl⟩ := stepAWord_latches hp
    .taken w i row _ hf hr hd hl

/-- When no word is taken, the oldest move to come is the next. -/
theorem nextMove_of_env {s : State} {m : EnvMove} {rest : List EnvMove} (hf : fetch s = none) (he : s.env = m :: rest) :
    nextMove s = some m := by simp [nextMove, hf, he]

/-- Outside a reset a step commits a pending update, or keeps the architectural state. -/
theorem step_archChange {s t : State} (h : step s = .next t) (hr : ∀ st, nextMove s ≠ some (.reset st)) :
    ArchChange s.Pending s t := by
  cases step_cases h with
  | took w row hf hready => exact (takenEnd_stepAWord hf hready).archChange
  | quiet hf he => exact .kept rfl
  | presented w rest hf he hc => exact .kept rfl
  | answered w rest hp he => exact archChange_complete rfl rfl (.latched _ hp rfl) he
  | ignored m rest hf he hm => exact .kept rfl
  | resetTo st rest cfg row hf he hs => exact absurd (nextMove_of_env hf he) (hr st)

/-- A state reached in `WAIT` holds an update that was pending before the step: no other is ever latched. -/
theorem step_pend {s t : State} (h : step s = .next t) (hw : t.phase = .wait) : s.Pending t.pend := by
  cases step_cases h with
  | took w row hf hready =>
    obtain ⟨ends, latched⟩ := takenEnd_stepAWord hf hready
    generalize settle (stepAWord w row (takeWord s)) = t at ends latched hw
    cases ends with
    | responded st d => simp at hw
    | answered r p w rest he => simp at hw
    | waits r p he => exact latched (by simp)
  | quiet hf he => exact .latched _ hw rfl
  | presented w rest hf he hc => exact .latched _ hw rfl
  | answered w rest hp he => simp at hw
  | ignored m rest hf he hm => exact .latched _ hw rfl
  | resetTo st rest cfg row hf he hs => simp at hw

/-- A reset that is the next move leaves the reset state of what it samples. -/
theorem step_of_nextMove_reset {s t : State} {st : Straps} (hm : nextMove s = some (.reset st)) (h : step s = .next t) :
    ∃ rest cfg row, sampleStraps s.cfg.mt st = some (cfg, row) ∧
      t = beginRun { s with env := rest } (State.resetWith cfg row) := by
  obtain ⟨rest, -, hstep⟩ := step_of_nextMove hm
  exact ⟨rest, applyReset_next (hstep.symm.trans h)⟩

/-- Outside a reset a step keeps the configuration. -/
theorem step_cfg {s t : State} (h : step s = .next t) (hr : ∀ st, nextMove s ≠ some (.reset st)) : t.cfg = s.cfg := by
  cases step_cases h with
  | took w row hf hready => exact (takenEnd_stepAWord hf hready).cfg
  | quiet hf he => rfl
  | presented w rest hf he hc => rfl
  | answered w rest hp he => simp
  | ignored m rest hf he hm => rfl
  | resetTo st rest cfg row hf he hs => exact absurd (nextMove_of_env hf he) (hr st)

end Sys2Proof.Machine
end

section
/-! SUPPORT. The statements of spec/10_state.md R36 to R39: the invariant, at a reset and over every step. -/

namespace Sys2Proof.Machine

/-- The invariant speaks of the architectural state, the configuration, and the update latched in `WAIT` only. -/
theorem State.InvFor.of_arch {row : Row} {s t : State} (h : s.InvFor row) (harch : t.arch = s.arch)
    (hcfg : t.cfg = s.cfg) (hpend : t.phase = .wait → Pend.Ok row t.pend) : t.InvFor row := by
  have hfs : t.curFs = s.curFs := congrArg Arch.curFs harch
  have hch : t.ch = s.ch := congrArg Arch.ch harch
  obtain ⟨hsel, hcur, hlen, hok, -⟩ := h
  exact ⟨hcfg ▸ hsel, hfs ▸ hcur, hch ▸ hlen, hch ▸ hok, hpend⟩

/-- Committing an update within the bounds keeps the bounds. -/
theorem State.InvFor.commit {row : Row} {s : State} {p : Pend} (h : s.InvFor row) (hp : Pend.Ok row p) :
    (commit p s).InvFor row := by
  obtain ⟨hsel, hcur, hlen, hok, hpend⟩ := h
  cases p with
  | begin => exact ⟨hsel, hcur, hlen, hok, hpend⟩
  | range f => exact ⟨hsel, hp, hlen, hok, hpend⟩
  | volt ch code snap =>
    refine ⟨hsel, hcur, (List.length_set ..).trans hlen, fun c hc => ?_, hpend⟩
    rcases List.mem_or_eq_of_mem_set hc with hold | rfl
    · exact hok c hold
    · exact hp.2

/-- Under the invariant every pending update is within the bounds. -/
theorem State.InvFor.pending_ok {row : Row} {s : State} {p : Pend} (h : s.InvFor row) (hp : s.Pending p) :
    Pend.Ok row p := by
  cases hp with
  | latched _ hw hp => exact hp ▸ h.pend_ok hw
  | taken w i row' _ hf hr hd hl =>
    obtain rfl : row = row' := Option.some.inj (h.row_selected.symm.trans hr.row_selected)
    exact hl.ok hr.row_wf h.curFs_allowed

/-- Outside a reset a step keeps the invariant under the same row. -/
theorem step_keeps_invFor {row : Row} {s t : State} (hs : s.InvFor row) (h : step s = .next t)
    (hr : ∀ st, nextMove s ≠ some (.reset st)) : t.InvFor row := by
  have hcfg : t.cfg = s.cfg := step_cfg h hr
  have hpend : t.phase = .wait → Pend.Ok row t.pend := fun hw => hs.pending_ok (step_pend h hw)
  cases step_archChange h hr with
  | kept harch => exact hs.of_arch harch hcfg hpend
  | committed p hp w rest he hok hrsp harch =>
    exact (hs.commit (hs.pending_ok hp)).of_arch harch (hcfg.trans (commit_cfg p s).symm) hpend

/-- The reset state of a legal configuration meets the invariant. -/
theorem resetWith_invFor {cfg : Cfg} {row : Row} (h : selectedRow cfg = some row) :
    (State.resetWith cfg row).InvFor row := by
  have hdef : row.defaultFs ∈ row.allowedFs := Row.defaultFs_mem (selectedRow_wf h)
  refine ⟨h, hdef, List.length_replicate, fun c hc => ?_, fun hw => by simp at hw⟩
  obtain rfl := List.eq_of_mem_replicate hc
  refine ⟨hdef, ?_⟩
  unfold Channel.RawBound
  split <;> simp

/-- Settles O49: outside a reset a step commits only what the invariant bounds, and a reset leaves the reset state of a
legal configuration. -/
theorem stepKeepsTheInvariant : Obligations.StepKeepsTheInvariant := by
  rintro s t ⟨row, hs⟩ h
  by_cases hr : ∃ st, nextMove s = some (.reset st)
  · obtain ⟨st, hm⟩ := hr
    obtain ⟨rest, cfg, row', hsample, rfl⟩ := step_of_nextMove_reset hm h
    exact ⟨row', (resetWith_invFor (sampleStraps_some hsample).2).of_arch rfl rfl fun hw => by simp at hw⟩
  · exact ⟨row, step_keeps_invFor hs h (not_exists.1 hr)⟩

/-- Settles O50: `State.reset` is the reset state of the legal configuration that selects `rowMA`. -/
theorem resetMeetsTheInvariant : Obligations.ResetMeetsTheInvariant := by
  have hsel : selectedRow State.reset.cfg = some rowMA := by decide
  exact ⟨⟨rowMA, resetWith_invFor hsel⟩, fun cfg row h => resetWith_invFor h⟩

/-- Settles O53: `CUR_FS` is allowed before and after the step, and a single-range row allows one value. -/
theorem singleRangeNeverChanges : Obligations.SingleRangeNeverChanges := by
  intro s t row hs h hr
  have ht := (step_keeps_invFor hs h hr).curFs_allowed
  refine ⟨ht, fun h1 => ?_⟩
  have hallowed : row.allowedFs = [row.fs0] := by simp [Row.allowedFs, h1]
  have hcur := hs.curFs_allowed
  rw [hallowed, List.mem_singleton] at hcur ht
  rw [ht, hcur]

end Sys2Proof.Machine
end

section
/-! SUPPORT. The statements of spec/10_state.md R21 to R25: who writes what, and what each command leaves unchanged. -/

namespace Sys2Proof.Machine

/-- Settles O27: BEGIN commits nothing, and an accessor only gives a response. -/
theorem frameOfBeginAndAccessors : Obligations.FrameOfBeginAndAccessors := by
  intro i s t h
  rcases exec_cases h with ⟨-, rfl⟩ | ⟨row, hr, hend⟩
  · exact ⟨fun _ => ⟨rfl, rfl, rfl⟩, fun _ _ => ⟨rfl, rfl, rfl, rfl, rfl, rfl⟩⟩
  · refine ⟨?_, fun ch hi => ?_⟩
    · rintro rfl
      have hfs : t.curFs = s.curFs := hend.archChange.curFs_eq fun f hl => nomatch hl
      have hch : t.ch = s.ch := hend.archChange.ch_eq fun ch code snap hl => nomatch hl
      exact ⟨hfs, hch, hend.cfg⟩
    · have hnone : ∀ p, ¬ Latches row s.curFs i p := by
        rcases hi with rfl | rfl <;> exact fun p hl => nomatch hl
      obtain ⟨st, d, rfl⟩ := hend.responded hnone
      exact ⟨rfl, rfl, rfl, rfl, hr.idle.symm, rfl⟩

/-- Settles O28: SETRANGE latches only the value it asks for. -/
theorem frameOfSetrange : Obligations.FrameOfSetrange := by
  intro req s t h
  rcases exec_cases h with ⟨-, rfl⟩ | ⟨row, hr, hend⟩
  · exact ⟨rfl, rfl, .inl rfl⟩
  · have hch : t.ch = s.ch := hend.archChange.ch_eq fun ch code snap hl => nomatch hl
    refine ⟨hch, hend.cfg, or_iff_not_imp_left.2 fun hne => ?_⟩
    obtain ⟨hl, w, rest, -, -, hrsp⟩ := hend.archChange.curFs hne
    exact ⟨hrsp, (Instr.setrange.inj (hl.setrange hr.row_wf)).symm⟩

/-- Settles O29: SETVOLT latches only an entry of its own channel. -/
theorem frameOfSetvolt : Obligations.FrameOfSetvolt := by
  intro ch v s t h
  rcases exec_cases h with ⟨-, rfl⟩ | ⟨row, hr, hend⟩
  · exact ⟨rfl, rfl, rfl, fun _ _ => rfl, .inl rfl⟩
  · have hfs : t.curFs = s.curFs := hend.archChange.curFs_eq fun f hl => nomatch hl
    by_cases hch : t.ch = s.ch
    · exact ⟨hfs, hend.cfg, by rw [hch], fun j _ => by rw [hch], .inl hch⟩
    · obtain ⟨ch', code, snap, hl, hset, w, rest, -, -, hrsp⟩ := hend.archChange.ch hch
      obtain ⟨v', hv⟩ := hl.setvolt
      obtain rfl : ch = ch' := (Instr.setvolt.inj hv).1
      refine ⟨hfs, hend.cfg, by rw [hset, List.length_set], fun j hj => ?_, .inr hrsp⟩
      rw [hset, List.getElem?_set_ne hj.symm]

/-- Settles O51: a `CUR_FS` that differs was pending, in `WAIT` or in the SETRANGE that the step took. -/
theorem onlySetrangeWritesCurFs : Obligations.OnlySetrangeWritesCurFs := by
  intro s t h hr hne
  obtain ⟨hp, a, rest, he, hok, hrsp⟩ := (step_archChange h hr).curFs hne
  refine ⟨a, rest, he, hok, hrsp, ?_⟩
  cases hp with
  | latched _ hw hp => exact .inl ⟨hw, hp⟩
  | taken w i row _ hf hready hd hl =>
    obtain rfl := hl.setrange hready.row_wf
    exact .inr ⟨w, _, hf, hd, rfl⟩

/-- Settles O52: an entry that differs was pending, in `WAIT` or in the SETVOLT that the step took. -/
theorem onlySetvoltWritesItsChannel : Obligations.OnlySetvoltWritesItsChannel := by
  intro s t j h hr hne
  have hch : t.ch ≠ s.ch := fun heq => hne (by rw [heq])
  obtain ⟨ch, code, snap, hp, hset, a, rest, he, hok, hrsp⟩ := (step_archChange h hr).ch hch
  obtain rfl : ch.toNat = j := by
    by_contra hj
    exact hne (by rw [hset, List.getElem?_set_ne hj])
  refine ⟨a, rest, he, hok, hrsp, ?_⟩
  cases hp with
  | latched _ hw hp =>
    have hlt : ch.toNat < s.ch.length := by
      by_contra hge
      exact hch (by rw [hset, List.set_eq_of_length_le (Nat.not_lt.1 hge)])
    exact .inl ⟨ch, code, snap, hw, hp, rfl, by rw [hset, List.getElem?_set_self hlt]⟩
  | taken w i row _ hf hready hd hl =>
    obtain ⟨v, rfl⟩ := hl.setvolt
    exact .inr ⟨w, ch, v, hf, hd, rfl⟩

end Sys2Proof.Machine
end

section
/-! SUPPORT. The statements of spec/10_state.md R26 to R35 and R42: the configuration, what a reset leaves, and which
inputs are refused. -/

namespace Sys2Proof.Machine

/-- Settles O47: a step that is not a reset keeps the configuration, and a reset samples the straps only. -/
theorem configurationConstantUntilReset : Obligations.ConfigurationConstantUntilReset := by
  refine fun s t h => ⟨?_, step_cfg h⟩
  by_cases hr : ∃ st, nextMove s = some (.reset st)
  · obtain ⟨st, hm⟩ := hr
    obtain ⟨rest, cfg, row, hsample, rfl⟩ := step_of_nextMove_reset hm h
    obtain ⟨rfl, -⟩ := sampleStraps_some hsample
    rfl
  · rw [step_cfg h (not_exists.1 hr)]

/-! ### What a reset samples -/

theorem sampleStraps_of_legal {mt : List Row} {st : Straps} {row : Row} (hw : Table.wf mt = true)
    (hm : st.model.toNat < 6) (hr : mt[st.model.toNat]? = some row) :
    sampleStraps mt st = some ({ model := st.model, devAddr := st.devAddr row, mt := mt }, row) := by
  simp [sampleStraps, hw, strapsLegal_iff.2 hm, hr]

theorem not_legal_of_illegal {table : List Row} {m : BitVec 3} (h : Table.wf table = false ∨ 6 ≤ m.toNat) :
    ¬ (Table.wf table = true ∧ m.toNat < 6) := by
  rintro ⟨hw, hm⟩
  rcases h with hf | h6
  · exact Bool.noConfusion (hf.symm.trans hw)
  · exact absurd hm (Nat.not_lt.2 h6)

theorem sampleStraps_of_illegal {mt : List Row} {st : Straps} (h : Table.wf mt = false ∨ 6 ≤ st.model.toNat) :
    sampleStraps mt st = none := if_neg fun hl => not_legal_of_illegal h (by simpa [strapsLegal_iff] using hl)

theorem step_of_reset {s : State} {st : Straps} {rest : List EnvMove} (hf : fetch s = none)
    (he : s.env = .reset st :: rest) : step s = applyReset st { s with env := rest } := by
  simp [step_of_no_fetch hf, envStep, he, envMove]

/-- A reset with legal straps leaves the reset state of the selected row. -/
theorem step_of_legal_reset {s : State} {st : Straps} {row : Row} {rest : List EnvMove} (hf : fetch s = none)
    (he : s.env = .reset st :: rest) (hw : Table.wf s.cfg.mt = true) (hm : st.model.toNat < 6)
    (hr : s.cfg.mt[st.model.toNat]? = some row) :
    step s = .next (beginRun { s with env := rest }
      (State.resetWith { model := st.model, devAddr := st.devAddr row, mt := s.cfg.mt } row)) := by
  rw [step_of_reset hf he, applyReset, sampleStraps_of_legal hw hm hr]

/-- A reset with illegal straps, or under an ill-formed table, is refused. -/
theorem applyReset_of_illegal {st : Straps} {s : State} (h : Table.wf s.cfg.mt = false ∨ 6 ≤ st.model.toNat) :
    applyReset st s = .refused .illegalConfiguration := by
  rw [applyReset, sampleStraps_of_illegal h]

/-- Settles O44: with legal straps the reset leaves the reset state of the row they select. -/
theorem resetValues : Obligations.ResetValues := by
  intro s st row rest hf he hw hm hr
  refine ⟨_, step_of_legal_reset hf he hw hm hr, rfl, List.length_replicate, fun i hi => ?_, rfl, rfl, rfl, rfl, rfl, rfl⟩
  exact List.getElem?_replicate_of_lt hi

/-- Settles O48: row 0 of MT_REF is `rowMA`. -/
theorem resetStateIsAResetOfTheReferenceTable : Obligations.ResetStateIsAResetOfTheReferenceTable := by
  have hw : Table.wf mtRef = true := by decide
  refine ⟨hw, fun s rest hf he hmt => ?_⟩
  have hrow : s.cfg.mt[resetStraps.model.toNat]? = some rowMA := by rw [hmt]; rfl
  refine ⟨_, step_of_legal_reset hf he (hmt ▸ hw) (by decide) hrow, ?_, rfl, rfl, rfl, rfl, rfl, rfl, rfl, rfl⟩
  rw [beginRun_cfg, resetWith_cfg, hmt]
  rfl

/-! ### Refusals -/

theorem selectedRow_of_illegal {c : Cfg} (h : Table.wf c.mt = false ∨ 6 ≤ c.model.toNat) : selectedRow c = none :=
  if_neg fun hl => not_legal_of_illegal h (cfgLegal_iff.1 hl)

theorem accept_of_no_row {s : State} (k : Row → State → State) (hp : s.phase = .idle) (hr : selectedRow s.cfg = none) :
    accept k s = .refused .illegalConfiguration := by simp [accept, hp, hr]

/-- Settles O46: without a selected row no word is taken, and without legal straps no reset is applied. -/
theorem illegalConfigurationIsRefused : Obligations.IllegalConfigurationIsRefused := by
  refine ⟨fun s hp h => ⟨fun i => ?_, fun w hc => ?_⟩, fun s st rest hf he h => ?_⟩
  · rw [exec_eq_accept, accept_of_no_row _ hp (selectedRow_of_illegal h)]
  · rw [step_of_fetch ((fetch_of_idle hp).trans hc), accept_of_no_row _ hp (selectedRow_of_illegal h)]
  · exact (step_of_reset hf he).trans (applyReset_of_illegal h)

/-- Under a well-formed table the environment has two moves that are refused. -/
theorem envMove_refused_iff {m : EnvMove} {s : State} {r : Refusal} (hw : Table.wf s.cfg.mt = true) :
    envMove m s = .refused r ↔
      (r = .twoCommandsAtOnce ∧ s.cmdPort ≠ none ∧ ∃ w, m = .present w) ∨
        (r = .illegalConfiguration ∧ ∃ st, m = .reset st ∧ 6 ≤ st.model.toNat) := by
  cases m with
  | present w =>
    cases hc : s.cmdPort with
    | none => simp [envMove, presentWord, hc]
    | some w' => simp [envMove, presentWord, hc, eq_comm]
  | answer w => simp [envMove]
  | lateAnswer w => simp [envMove]
  | reset st =>
    by_cases hm : st.model.toNat < 6
    · obtain ⟨row, hr⟩ := Table.row_of_wf hw hm
      simp [envMove, applyReset, sampleStraps_of_legal hw hm hr, hm]
    · have h6 : 6 ≤ st.model.toNat := Nat.not_lt.1 hm
      simp [envMove, applyReset_of_illegal (.inr h6), h6, eq_comm]

/-- Under a legal configuration a step that hands no move to the environment answers a next state. -/
theorem step_of_no_nextMove {s : State} {row : Row} (hsel : selectedRow s.cfg = some row) (hm : nextMove s = none) :
    ∃ t, step s = .next t := by
  cases hf : fetch s with
  | some w => exact ⟨_, (step_of_fetch hf).trans (accept_ready _ ⟨(fetch_some_idle hf).1, hsel⟩)⟩
  | none =>
    have he : s.env = [] := by simpa [nextMove, hf] using hm
    exact ⟨s, by simp [step_of_no_fetch hf, envStep, he]⟩

/-- The inputs that are refused under a legal configuration. -/
theorem step_refused_iff {s : State} {row : Row} {r : Refusal} (hsel : selectedRow s.cfg = some row) :
    step s = .refused r ↔
      (r = .twoCommandsAtOnce ∧ s.cmdPort ≠ none ∧ ∃ w, nextMove s = some (.present w)) ∨
        (r = .illegalConfiguration ∧ ∃ st, nextMove s = some (.reset st) ∧ 6 ≤ st.model.toNat) := by
  cases hm : nextMove s with
  | none =>
    obtain ⟨t, ht⟩ := step_of_no_nextMove hsel hm
    simp [ht]
  | some m =>
    obtain ⟨rest, -, hstep⟩ := step_of_nextMove hm
    have hw : Table.wf s.cfg.mt = true := (cfgLegal_iff.1 (selectedRow_iff.1 hsel).1).1
    rw [hstep]
    simpa only [Option.some.injEq] using envMove_refused_iff (s := { s with env := rest }) hw

/-- Settles O56: what is not one of the two refusals answers a next state, since there is no fault. -/
theorem refusalsAreExactlyTwoInputs : Obligations.RefusalsAreExactlyTwoInputs := by
  rintro s ⟨row, hs⟩
  refine ⟨fun r => step_refused_iff hs.row_selected, fun hone hlegal => ?_⟩
  rcases step_next_or_refused s with hnext | ⟨r, hr⟩
  · exact hnext
  · rcases (step_refused_iff hs.row_selected).1 hr with ⟨-, hheld, w, hm⟩ | ⟨-, st, hm, h6⟩
    · rcases hone with hnone | hno
      · exact absurd hnone hheld
      · exact absurd hm (hno w)
    · exact absurd (hlegal st hm) (Nat.not_lt.2 h6)

end Sys2Proof.Machine
end

section
/-! SUPPORT. The statement of spec/10_state.md R41: a step from `IDLE` does not read `PEND`. -/

namespace Sys2Proof.Machine

/-- `u'` is `u` but for `PEND`, and has `u`'s own `PEND` when `u` is in `WAIT`. -/
def PendFreeEq (u u' : State) : Prop := ∃ q, u' = { u with pend := q } ∧ (u.phase = .wait → q = u.pend)

theorem PendFreeEq.of_idle {u : State} (h : u.phase = .idle) (q : Pend) : PendFreeEq u { u with pend := q } :=
  ⟨q, rfl, fun hw => by simp [h] at hw⟩

theorem PendFreeEq.refl (u : State) : PendFreeEq u u := ⟨u.pend, rfl, fun _ => rfl⟩

/-- `settle` reads `PEND` in `WAIT` only. -/
theorem PendFreeEq.settle {u u' : State} (h : PendFreeEq u u') : PendFreeEq (settle u) (settle u') := by
  obtain ⟨q, rfl, hq⟩ := h
  by_cases hp : u.phase = .wait
  · obtain rfl := hq hp
    exact .refl _
  · have hidle : u.phase = .idle := by
      cases hu : u.phase with
      | idle => rfl
      | wait => exact absurd hu hp
    rw [settle_of_idle hidle, settle_of_idle (s := { u with pend := q }) hidle]
    exact .of_idle hidle q

theorem respondField_setPend (field : Channel → BitVec 16) (ch : ChannelIndex) (row : Row) (s : State) (p : Pend) :
    respondField field ch row { s with pend := p } = { respondField field ch row s with pend := p } := by
  simp only [respondField, readChannel]
  split
  · cases s.ch[ch.toNat]? <;> rfl
  · rfl

/-- Step A of a command reads no `PEND`: it keeps it, or latches over it. -/
theorem stepA_pendFree (i : Instr) (row : Row) (s : State) (p : Pend) :
    PendFreeEq (stepA i row s) (stepA i row { s with pend := p }) := by
  cases i with
  | begin => exact .refl _
  | setrange req =>
    simp only [stepA, acceptSetrange]
    cases matchRange row req with
    | none => exact .of_idle rfl p
    | some k => exact .refl _
  | setvolt ch v =>
    simp only [stepA, acceptSetvolt]
    cases channelOk row ch with
    | true => exact .refl _
    | false => exact .of_idle rfl p
  | rdcode ch =>
    simp only [stepA, respondField_setPend]
    exact .of_idle (respondField_phase ..) p
  | rdfs ch =>
    simp only [stepA, respondField_setPend]
    exact .of_idle (respondField_phase ..) p

theorem stepAWord_pendFree (w : CommandWord) (row : Row) (s : State) (p : Pend) :
    PendFreeEq (stepAWord w row s) (stepAWord w row { s with pend := p }) := by
  unfold stepAWord
  cases decode w with
  | none => exact .of_idle rfl p
  | some i => exact stepA_pendFree i row s p

theorem takeAnswer_of_idle {s : State} (w : AnswerWord) (hp : s.phase = .idle) : takeAnswer w s = s := by
  simp [takeAnswer, hp]

/-- No move of the environment reads `PEND` in `IDLE`. -/
theorem envMove_pendFree {m : EnvMove} {s t : State} (p : Pend) (hp : s.phase = .idle) (h : envMove m s = .next t) :
    ∃ t', envMove m { s with pend := p } = .next t' ∧ PendFreeEq t t' := by
  cases m with
  | present w =>
    simp only [envMove, presentWord] at h ⊢
    cases hc : s.cmdPort with
    | none =>
      obtain rfl : { s with cmdPort := some w } = t := by simpa [hc] using h
      exact ⟨_, rfl, .of_idle (u := { s with cmdPort := some w }) hp p⟩
    | some w' => simp [hc] at h
  | answer w =>
    simp only [envMove, takeAnswer_of_idle w hp, Host.Outcome.next.injEq] at h
    subst h
    exact ⟨_, congrArg Host.Outcome.next (takeAnswer_of_idle (s := { s with pend := p }) w hp), .of_idle hp p⟩
  | lateAnswer w =>
    obtain rfl : s = t := Host.Outcome.next.inj h
    exact ⟨_, rfl, .of_idle hp p⟩
  | reset st => exact ⟨t, h, .refl t⟩

/-- Settles O55: a taken word reads no `PEND`, and no move of the environment reads it in `IDLE`. -/
theorem pendIsNeverReadInIdle : Obligations.PendIsNeverReadInIdle := by
  intro s t p hp h
  suffices hstep : ∃ t', step { s with pend := p } = .next t' ∧ PendFreeEq t t' by
    obtain ⟨t', ht', q, rfl, hq⟩ := hstep
    exact ⟨q, ht', hq⟩
  cases hf : fetch s with
  | some w =>
    rw [step_of_fetch (s := { s with pend := p }) hf]
    rw [step_of_fetch hf] at h
    rcases accept_cases h with ⟨hw, -⟩ | ⟨row, hr, rfl⟩
    · simp [hp] at hw
    · exact ⟨_, accept_ready _ ⟨hr.idle, hr.row_selected⟩, (stepAWord_pendFree w row (takeWord s) p).settle⟩
  | none =>
    rw [step_of_no_fetch (s := { s with pend := p }) hf]
    rw [step_of_no_fetch hf] at h
    cases he : s.env with
    | nil =>
      obtain rfl : s = t := by simpa [envStep, he] using h
      exact ⟨_, by simp [envStep, he], .of_idle hp p⟩
    | cons m rest =>
      rw [envStep, he] at h
      simpa only [envStep, he] using envMove_pendFree (s := { s with env := rest }) p hp h

end Sys2Proof.Machine
end

section
/-! SUPPORT. The statements of spec/20_memory.md R63 and R65: which locations a request can address, and how many
requests each command issues. -/

namespace Sys2Proof.Machine

/-! ### The requests of step A -/

/-- Step A of a command issues no request, or one that the command may issue. -/
theorem stepA_treq {row : Row} (hw : row.wf = true) (i : Instr) (s : State) :
    (stepA i row s).treq = s.treq ∨
      ∃ r, (stepA i row s).treq = s.treq ++ [Request.word r] ∧ allowedRequest s.cfg row i r := by
  rcases stepA_cases hw i s with ⟨st, d, h⟩ | ⟨r, p, h, hallowed⟩
  · exact .inl (by simp [h])
  · exact .inr ⟨r, by simp [h], hallowed⟩

/-- Step A of a word issues no request, or one that the command it decodes to may issue. -/
theorem stepAWord_treq {row : Row} (hw : row.wf = true) (w : CommandWord) (s : State) :
    (stepAWord w row s).treq = s.treq ∨
      ∃ i r, decode w = some i ∧ (stepAWord w row s).treq = s.treq ++ [Request.word r] ∧
        allowedRequest s.cfg row i r := by
  unfold stepAWord
  cases hd : decode w with
  | none => exact .inl rfl
  | some i =>
    refine (stepA_treq hw i s).imp_right ?_
    rintro ⟨r, htreq, hallowed⟩
    exact ⟨i, r, rfl, htreq, hallowed⟩

/-- Settles O8: only a taken word issues a request, in its step A. -/
theorem requestsReachOnlyTheRowsLocations : Obligations.RequestsReachOnlyTheRowsLocations := by
  intro s t row hsel h
  cases step_cases h with
  | took w row' hf hready =>
    obtain rfl : row' = row := Option.some.inj (hready.row_selected.symm.trans hsel)
    rw [settle_treq]
    refine (stepAWord_treq hready.row_wf w (takeWord s)).imp_right ?_
    rintro ⟨i, r, hd, htreq, hallowed⟩
    exact ⟨w, i, r, hf, hd, htreq, hallowed⟩
  | quiet hf he => exact .inl rfl
  | presented w rest hf he hc => exact .inl rfl
  | answered w rest hp he => exact .inl (complete_treq ..)
  | ignored m rest hf he hm => exact .inl rfl
  | resetTo st rest cfg row' hf he hs => exact .inl rfl

/-! ### How many requests a command issues -/

/-- A write of either width is no read: its `KIND` is not 1 (R98). -/
theorem kindField_writeRequest_ne_read (width : Width) (addr : DevAddr) (reg : ChipReg) (data : BitVec 16) :
    kindField (writeRequest width addr reg data).word ≠ 1 := by
  cases width <;> simp only [writeRequest, Request.word, kindField_requestWord] <;> decide

theorem acceptSetrange_treq_of_match {row : Row} {req : Operand} {k : Fin 2} (h : matchRange row req = some k)
    (s : State) :
    (acceptSetrange req row s).treq =
      s.treq ++ [(writeRequest row.rangeWidth s.cfg.devAddr row.rangeReg (row.rangeData k)).word] := by
  simp [acceptSetrange, h]

theorem acceptSetrange_treq_of_no_match {row : Row} {req : Operand} (h : matchRange row req = none) (s : State) :
    (acceptSetrange req row s).treq = s.treq := by
  simp [acceptSetrange, h]

theorem acceptSetvolt_treq_of_channel {row : Row} {ch : ChannelIndex} (h : ch.toNat < row.nChannels) (v : Operand)
    (s : State) :
    (acceptSetvolt ch v row s).treq = s.treq ++ [(voltRequest row s.cfg.devAddr ch v s.curFs).word] := by
  simp [acceptSetvolt, channelOk_iff.2 h]

theorem acceptSetvolt_treq_of_no_channel {row : Row} {ch : ChannelIndex} (h : row.nChannels ≤ ch.toNat) (v : Operand)
    (s : State) : (acceptSetvolt ch v row s).treq = s.treq := by
  simp [acceptSetvolt, channelOk, Nat.not_lt.2 h]

@[simp] theorem respondField_treq (field : Channel → BitVec 16) (ch : ChannelIndex) (row : Row) (s : State) :
    (respondField field ch row s).treq = s.treq := by
  unfold respondField
  split
  · cases readChannel ch.toNat s <;> rfl
  · rfl

/-- A command that is taken answers a next state, and its requests are those of its step A. -/
theorem exec_treq {s : State} {row : Row} (i : Instr) (h : s.Ready row) :
    ∃ t, exec i s = .next t ∧ t.treq = (stepA i row (takeWord s)).treq :=
  ⟨_, exec_ready i h, settle_treq _⟩

/-- Settles O35: each command issues what its step A issues. -/
theorem oneRequestPerValidCommand : Obligations.OneRequestPerValidCommand := by
  intro s row hr
  refine ⟨?begin, fun req => ?setrange, fun ch v => ?setvolt, fun ch => ?rdcode, fun ch => ?rdfs,
    fun w hc hd => ?illegal⟩
  case begin =>
    obtain ⟨t, ht, htreq⟩ := exec_treq .begin hr
    exact ⟨t, _, ht, htreq, kindField_requestWord 1 s.cfg.devAddr 0 0⟩
  case setrange =>
    obtain ⟨t, ht, htreq⟩ := exec_treq (.setrange req) hr
    refine ⟨t, ht, ?_, fun hinvalid => ?_⟩
    · rintro ⟨h2, k, hk⟩
      have hmatch : matchRange row req = some k := (matchRange_some_iff hr.row_wf).2 ⟨h2, hk⟩
      exact ⟨_, htreq.trans (acceptSetrange_treq_of_match hmatch _), kindField_writeRequest_ne_read _ _ _ _⟩
    · have hmatch : matchRange row req = none := Option.eq_none_iff_forall_ne_some.2 fun k hk =>
        let ⟨h2, heq⟩ := (matchRange_some_iff hr.row_wf).1 hk
        hinvalid ⟨h2, k, heq⟩
      exact htreq.trans (acceptSetrange_treq_of_no_match hmatch _)
  case setvolt =>
    obtain ⟨t, ht, htreq⟩ := exec_treq (.setvolt ch v) hr
    refine ⟨t, ht, fun hlt => ?_, fun hge => htreq.trans (acceptSetvolt_treq_of_no_channel hge v _)⟩
    exact ⟨_, htreq.trans (acceptSetvolt_treq_of_channel hlt v _), kindField_writeRequest_ne_read _ _ _ _⟩
  case rdcode =>
    obtain ⟨t, ht, htreq⟩ := exec_treq (.rdcode ch) hr
    exact ⟨t, ht, htreq.trans (respondField_treq ..)⟩
  case rdfs =>
    obtain ⟨t, ht, htreq⟩ := exec_treq (.rdfs ch) hr
    exact ⟨t, ht, htreq.trans (respondField_treq ..)⟩
  case illegal =>
    have hf : fetch s = some w := (fetch_of_idle hr.idle).trans hc
    refine ⟨_, (step_of_fetch hf).trans (accept_ready _ hr), (settle_treq _).trans ?_⟩
    simp [stepAWord, hd, acceptIllegal]

end Sys2Proof.Machine
end

section
/-! SUPPORT. The statements of spec/30_encoding.md R90 to R95, R100 and R101: the command word, its match and mask table,
the illegal words, and the assembler. -/

namespace Sys2Proof

open Sys2Proof.Machine

/-! ### The decoder, by the fields of a word -/

/-- A word is given by its fields. -/
theorem eq_commandWord_iff {w : CommandWord} {op rsv : BitVec 4} {ch : ChannelIndex} {arg : Operand} :
    w = commandWord op rsv ch arg ↔ opField w = op ∧ rsvField w = rsv ∧ chField w = ch ∧ argField w = arg := by
  conv_lhs => rw [← commandWord_fields w]
  exact commandWord_inj

theorem decode_encode (i : Instr) : decode (encode i) = some i := by
  cases i <;>
    simp [encode, decode, opField_commandWord, rsvField_commandWord, chField_commandWord, argField_commandWord]

theorem encode_of_decode {w : CommandWord} {i : Instr} (h : decode w = some i) : encode i = w := by
  symm
  unfold decode at h
  split_ifs at h with hrsv hbegin hrest hsetrange hch hsetvolt hrdcode harg hrdfs harg <;> cases h
  · exact eq_commandWord_iff.2 ⟨hbegin, not_not.1 hrsv, hrest⟩
  · exact eq_commandWord_iff.2 ⟨hsetrange, not_not.1 hrsv, hch, rfl⟩
  · exact eq_commandWord_iff.2 ⟨hsetvolt, not_not.1 hrsv, rfl, rfl⟩
  · exact eq_commandWord_iff.2 ⟨hrdcode, not_not.1 hrsv, rfl, harg⟩
  · exact eq_commandWord_iff.2 ⟨hrdfs, not_not.1 hrsv, rfl, harg⟩

/-- Settles O1: the decoder reads back the fields the encoder puts together, and a word is given by its fields. -/
theorem decodeAndEncodeAgree : Obligations.DecodeAndEncodeAgree :=
  ⟨decode_encode, fun _ _ => encode_of_decode⟩

theorem decode_eq_some_iff {w : CommandWord} {i : Instr} : decode w = some i ↔ w = encode i :=
  ⟨fun h => (encode_of_decode h).symm, fun h => h ▸ decode_encode i⟩

/-! ### The match and mask table (R93) -/

/-- A masked word is given by its masked fields. -/
theorem and_mask_eq_iff {w mask pattern : CommandWord} {op rsv : BitVec 4} {ch : ChannelIndex} {arg : Operand}
    (om rm : BitVec 4) (cm : ChannelIndex) (am : Operand) (hm : mask = commandWord om rm cm am)
    (hp : pattern = commandWord op rsv ch arg) :
    w &&& mask = pattern ↔
      opField w &&& om = op ∧ rsvField w &&& rm = rsv ∧ chField w &&& cm = ch ∧ argField w &&& am = arg := by
  conv_lhs => rw [← commandWord_fields w, hm, hp, commandWord_and]
  exact commandWord_inj

theorem decode_begin_iff_mask (w : CommandWord) :
    decode w = some .begin ↔ w &&& 0xFFFFFFFFFFFF#48 = 0x100000000000#48 := by
  rw [and_mask_eq_iff (.allOnes 4) (.allOnes 4) (.allOnes 8) (.allOnes 32) (op := 1) (rsv := 0) (ch := 0) (arg := 0)
    (by decide) (by decide)]
  simp only [BitVec.and_allOnes, decode_eq_some_iff, encode, eq_commandWord_iff]

theorem decode_setrange_iff_mask (w : CommandWord) :
    (∃ req, decode w = some (.setrange req)) ↔ w &&& 0xFFFF00000000#48 = 0x200000000000#48 := by
  rw [and_mask_eq_iff (.allOnes 4) (.allOnes 4) (.allOnes 8) 0 (op := 2) (rsv := 0) (ch := 0) (arg := 0)
    (by decide) (by decide)]
  simp only [BitVec.and_allOnes, decode_eq_some_iff, encode, eq_commandWord_iff]
  simp

theorem decode_setvolt_iff_mask (w : CommandWord) :
    (∃ ch v, decode w = some (.setvolt ch v)) ↔ w &&& 0xFF0000000000#48 = 0x300000000000#48 := by
  rw [and_mask_eq_iff (.allOnes 4) (.allOnes 4) 0 0 (op := 3) (rsv := 0) (ch := 0) (arg := 0)
    (by decide) (by decide)]
  simp only [BitVec.and_allOnes, decode_eq_some_iff, encode, eq_commandWord_iff]
  simp

/-- The two accessors have one mask, which leaves the channel free. -/
theorem accessorWord_iff_mask (op : BitVec 4) (w : CommandWord) :
    (∃ ch, w = commandWord op 0 ch 0) ↔ w &&& 0xFF00FFFFFFFF#48 = commandWord op 0 0 0 := by
  rw [and_mask_eq_iff (.allOnes 4) (.allOnes 4) 0 (.allOnes 32) (by decide) rfl]
  simp only [BitVec.and_allOnes, eq_commandWord_iff]
  simp

theorem decode_rdcode_iff_mask (w : CommandWord) :
    (∃ ch, decode w = some (.rdcode ch)) ↔ w &&& 0xFF00FFFFFFFF#48 = 0x400000000000#48 := by
  simp only [decode_eq_some_iff, encode]
  exact accessorWord_iff_mask 4 w

theorem decode_rdfs_iff_mask (w : CommandWord) :
    (∃ ch, decode w = some (.rdfs ch)) ↔ w &&& 0xFF00FFFFFFFF#48 = 0x500000000000#48 := by
  simp only [decode_eq_some_iff, encode]
  exact accessorWord_iff_mask 5 w

/-- Every mask holds all of `OP`. -/
theorem opField_mask : ∀ r ∈ opcodeTable, opField r.mask = .allOnes 4 := by decide

theorem opcodeRow_ext_opField :
    ∀ r ∈ opcodeTable, ∀ r' ∈ opcodeTable, opField r.pattern = opField r'.pattern → r = r' := by decide

theorem opField_of_accepts {r : OpcodeRow} {w : CommandWord} (hr : r ∈ opcodeTable) (h : r.accepts w = true) :
    opField r.pattern = opField w := by
  have hw : w &&& r.mask = r.pattern := by simpa [OpcodeRow.accepts] using h
  rw [← hw, opField, BitVec.extractLsb'_and, ← opField, ← opField, opField_mask r hr, BitVec.and_allOnes]

/-- Settles O2: each row fixes the fields that its command fixes, and two rows that accept one word have its `OP`. -/
theorem eachCommandIsItsMatchAndMask : Obligations.EachCommandIsItsMatchAndMask := by
  intro w
  refine ⟨decode_begin_iff_mask w, decode_setrange_iff_mask w, decode_setvolt_iff_mask w, decode_rdcode_iff_mask w,
    decode_rdfs_iff_mask w, fun r hr r' hr' h h' => opcodeRow_ext_opField r hr r' hr' ?_⟩
  rw [opField_of_accepts hr h, opField_of_accepts hr' h']

/-! ### Illegal words (R95) -/

/-- The fields of an illegal word, as numbers. -/
theorem decode_eq_none_iff {w : CommandWord} :
    decode w = none ↔
      (opField w).toNat = 0 ∨ 6 ≤ (opField w).toNat ∨ (rsvField w).toNat ≠ 0 ∨
      (((opField w).toNat = 1 ∨ (opField w).toNat = 2) ∧ (chField w).toNat ≠ 0) ∨
      (((opField w).toNat = 1 ∨ (opField w).toNat = 4 ∨ (opField w).toNat = 5) ∧ (argField w).toNat ≠ 0) := by
  unfold decode
  simp only [← BitVec.toNat_inj, BitVec.reduceToNat, BitVec.ofNat_eq_ofNat, ne_eq]
  split_ifs <;> simp only [true_iff, false_iff] <;> omega

theorem step_of_illegal {s : State} {row : Row} {w : CommandWord} (hr : s.Ready row) (hc : s.cmdPort = some w)
    (hd : decode w = none) : step s = .next (raiseError .illegalCommand (takeWord s)) := by
  have hA : stepAWord w row (takeWord s) = raiseError .illegalCommand (takeWord s) := by
    simp [stepAWord, hd, acceptIllegal]
  rw [step_of_fetch ((fetch_of_idle hr.idle).trans hc), accept_ready _ hr, hA, settle_of_idle (raiseError_phase ..)]

/-- Settles O3: the decoder's branches, by the four fields, and the one response of a word that does not decode. -/
theorem illegalWordsAreAnsweredAndDoNothing : Obligations.IllegalWordsAreAnsweredAndDoNothing := by
  refine ⟨fun w => decode_eq_none_iff, rfl, fun s row w hr hc hd => ⟨_, step_of_illegal hr hc hd, ?_⟩⟩
  exact ⟨rfl, rfl, rfl, (List.append_nil _).symm, rfl⟩

/-! ### The words of the spec and of the host's port -/

/-- Settles O4: the decoder runs on the six words. -/
theorem exampleWordsDecode : Obligations.ExampleWordsDecode := by
  unfold Obligations.ExampleWordsDecode
  decide

/-- A command word goes through the host's numbering unchanged. -/
theorem ofNat_toNat_mod (w : CommandWord) : BitVec.ofNat 48 (w.toNat % 2 ^ 48) = w := by
  rw [Nat.mod_eq_of_lt w.isLt, BitVec.ofNat_toNat, BitVec.setWidth_eq]

theorem decodeTableWord_encode (i : Instr) : decodeTableWord 48 (encode i).toNat = some i := by
  rw [decodeTableWord, if_pos (Nat.le_refl 48), ofNat_toNat_mod, decode_encode]

/-- Settles O43: the word at the port is the command's own, which the step decodes and runs. -/
theorem presentedTableWordRunsNext : Obligations.PresentedTableWordRunsNext := by
  intro s i
  have hport : (s.withFetchWord 48 (encode i).toNat).cmdPort = some (encode i) := by
    rw [withFetchWord_cmdPort, ofNat_toNat_mod]
  exact ⟨decodeTableWord_encode i, stepRunsTheDecodedCommand _ _ _ rfl hport (decode_encode i)⟩

/-! ### The assembler (R100, R101) -/

/-- The word of a line is that of its command, when its operands are in bounds. -/
theorem assemble_word (a : Asm) :
    (assemble a).map (fun i => (encode i).toNat) = if a.wf then some (encode a.expand).toNat else none := by
  unfold assemble
  split <;> rfl

theorem chOperandOk_iff {ch : Nat} : chOperandOk ch = true ↔ ch ≤ 255 := by simp [chOperandOk]

theorem voltOperandOk_iff {mv : Int} : voltOperandOk mv = true ↔ -(2 ^ 31) ≤ mv ∧ mv < 2 ^ 31 := by
  simp [voltOperandOk]

theorem rangeOperandOk_iff {mv : Int} : rangeOperandOk mv = true ↔ 0 ≤ mv ∧ mv < 2 ^ 32 := by simp [rangeOperandOk]

theorem toNat_ofNat_channel {ch : Nat} (h : ch ≤ 255) : (BitVec.ofNat 8 ch).toNat = ch := by
  rw [BitVec.toNat_ofNat, Nat.mod_eq_of_lt (by omega)]

theorem assemble_setrange_word (mv : Nat) :
    (assemble (.setrange mv)).map (fun i => (encode i).toNat) =
      if mv < 2 ^ 32 then some (0x2000 * 2 ^ 32 + mv) else none := by
  have hwf : (Asm.setrange mv).wf = true ↔ mv < 2 ^ 32 := rangeOperandOk_iff.trans (by omega)
  rw [assemble_word]
  refine ite_congr (propext hwf) (fun h => ?_) fun _ => rfl
  simpa [Asm.expand, encode, commandWord_toNat] using h

theorem assemble_setvolt_word (ch : Nat) (mv : Int) :
    (assemble (.setvolt ch mv)).map (fun i => (encode i).toNat) =
      if ch ≤ 255 ∧ -(2 ^ 31) ≤ mv ∧ mv < 2 ^ 31 then
        some ((0x30 * 2 ^ 8 + ch) * 2 ^ 32 + (mv % 2 ^ 32).toNat) else none := by
  have hwf : (Asm.setvolt ch mv).wf = true ↔ ch ≤ 255 ∧ -(2 ^ 31) ≤ mv ∧ mv < 2 ^ 31 := by
    rw [Asm.wf, Bool.and_eq_true, chOperandOk_iff, voltOperandOk_iff]
  rw [assemble_word]
  refine ite_congr (propext hwf) (fun h => ?_) fun _ => rfl
  simp [Asm.expand, encode, commandWord_toNat, -BitVec.toNat_ofNat, toNat_ofNat_channel h.1]

theorem assemble_rdcode_word (ch : Nat) :
    (assemble (.rdcode ch)).map (fun i => (encode i).toNat) =
      if ch ≤ 255 then some ((0x40 * 2 ^ 8 + ch) * 2 ^ 32) else none := by
  rw [assemble_word]
  refine ite_congr (propext chOperandOk_iff) (fun h => ?_) fun _ => rfl
  simp [Asm.expand, encode, commandWord_toNat, toNat_ofNat_channel h]

theorem assemble_rdfs_word (ch : Nat) :
    (assemble (.rdfs ch)).map (fun i => (encode i).toNat) =
      if ch ≤ 255 then some ((0x50 * 2 ^ 8 + ch) * 2 ^ 32) else none := by
  rw [assemble_word]
  refine ite_congr (propext chOperandOk_iff) (fun h => ?_) fun _ => rfl
  simp [Asm.expand, encode, commandWord_toNat, toNat_ofNat_channel h]

/-- Settles O10: a line in bounds has the word of its fields, whose numbers its operands are. -/
theorem assemblerWords : Obligations.AssemblerWords :=
  ⟨rfl, assemble_setrange_word, assemble_setvolt_word, assemble_rdcode_word, assemble_rdfs_word⟩

/-- A literal with too many places is refused, and any other is the SETVOLT of its millivolts. -/
theorem assemble_setv (ch : Nat) (x : Volts) :
    assemble (.setv ch x) = if x.places ≤ 3 then assemble (.setvolt ch x.millivolts) else none := by
  by_cases h : x.places ≤ 3 <;> simp [assemble, Asm.wf, Asm.expand, Volts.wf, h]

theorem millivolts_nonneg_iff {x : Volts} : 0 ≤ x.millivolts ↔ 0 ≤ x.mantissa := by
  have hpos : (0 : Int) < 10 ^ (3 - x.places) := by positivity
  exact mul_nonneg_iff_of_pos_right hpos

/-- A literal that is negative or has too many places is refused, and any other is the SETRANGE of its millivolts. -/
theorem assemble_setrangev (x : Volts) :
    assemble (.setrangev x) =
      if x.places ≤ 3 ∧ 0 ≤ x.mantissa then assemble (.setrange x.millivolts.toNat) else none := by
  simp only [← millivolts_nonneg_iff]
  by_cases hp : x.places ≤ 3
  · by_cases hm : 0 ≤ x.millivolts
    · obtain ⟨n, hn⟩ := Int.eq_ofNat_of_zero_le hm
      simp [assemble, Asm.wf, Asm.expand, Volts.wf, hp, hn]
    · simp [assemble, Asm.wf, rangeOperandOk, hm]
  · simp [assemble, Asm.wf, Volts.wf, hp]

/-- Settles O11: `Volts.millivolts` is the number of the statement. -/
theorem pseudoInstructionsExpand : Obligations.PseudoInstructionsExpand :=
  ⟨assemble_setv, assemble_setrangev, by decide, by decide⟩

end Sys2Proof
end

section
/-! SUPPORT. The statements of spec/30_encoding.md R96 to R99: the response word and the transport words, what a step adds
to the two records, and when a response is given. -/

namespace Sys2Proof.Machine

/-! ### The response word (R96, R97) -/

theorem statusField_responseWord (r : Response) : r.word.extractLsb' 16 4 = r.status.code := by
  apply BitVec.eq_of_toNat_eq
  rw [extractLsb'_toNat_div, responseWord_toNat]
  have := r.status.code.isLt; have := r.data.isLt
  omega

theorem dataField_responseWord (r : Response) : r.word.extractLsb' 0 16 = r.data := by
  apply BitVec.eq_of_toNat_eq
  rw [extractLsb'_toNat_div, responseWord_toNat]
  have := r.data.isLt
  omega

/-- Settles O5: the two fields are read back as they were written. -/
theorem responseWordLayout : Obligations.ResponseWordLayout :=
  ⟨fun r => ⟨statusField_responseWord r, dataField_responseWord r⟩, rfl, rfl, rfl, rfl, rfl⟩

/-! ### The transport answer word (R99) -/

theorem ofWord_ok_iff {w : AnswerWord} : (Answer.ofWord w).ok = true ↔ 256 ≤ w.toNat := by
  rw [ofWord_ok, ← BitVec.msb_eq_getLsbD_last (x := w), BitVec.msb_eq_decide]
  exact decide_eq_true_iff

theorem ofWord_byte_toNat (w : AnswerWord) : (Answer.ofWord w).byte.toNat = w.toNat % 256 := by
  rw [ofWord_byte, extractLsb'_toNat_div]
  omega

/-- An answer word holds nothing but the two fields. -/
theorem word_ofWord (w : AnswerWord) : (Answer.ofWord w).word = w := by
  apply BitVec.eq_of_toNat_eq
  rw [Answer.word, append_toNat_add, ofWord_byte_toNat, BitVec.toNat_ofBool]
  have hw := w.isLt
  by_cases h256 : 256 ≤ w.toNat
  · rw [ofWord_ok_iff.2 h256, Bool.toNat_true]
    omega
  · rw [Bool.eq_false_iff.2 (mt ofWord_ok_iff.1 h256), Bool.toNat_false]
    omega

/-- Settles O9: the two fields are the word's quotient and remainder by 256. -/
theorem answerWordLayout : Obligations.AnswerWordLayout :=
  ⟨ofWord_word, word_ofWord, fun w => ⟨ofWord_ok_iff, ofWord_byte_toNat w⟩⟩

/-! ### The transport request word (R98) -/

/-- A request that a command may issue is of one of the three kinds, to the device. -/
theorem allowedRequest_fields {cfg : Cfg} {row : Row} {i : Instr} {r : Request} (h : allowedRequest cfg row i r) :
    kindField r.word ≠ 0 ∧ addrField r.word = cfg.devAddr := by
  have hkind : r = .readByte cfg.devAddr ∨ (∃ reg d, r = .writeByte cfg.devAddr reg d) ∨
      ∃ reg d, r = .writeWord cfg.devAddr reg d := by
    cases i with
    | begin => exact .inl h
    | setrange req =>
      obtain ⟨-, hwrite⟩ := h
      exact .inr (hwrite.imp (fun hbyte => ⟨_, hbyte⟩) fun hword => ⟨_, hword⟩)
    | setvolt ch v =>
      obtain ⟨-, hwrite⟩ := h
      exact .inr (hwrite.imp (fun hbyte => ⟨_, hbyte⟩) fun hword => ⟨_, hword⟩)
    | rdcode ch => exact h.elim
    | rdfs ch => exact h.elim
  rcases hkind with rfl | ⟨reg, d, rfl⟩ | ⟨reg, d, rfl⟩ <;>
    simp [Request.word, kindField_requestWord, addrField_requestWord]

/-- Every request that a step issues is one that its command may issue. -/
theorem step_treq {s t : State} (h : step s = .next t) :
    t.treq = s.treq ∨ ∃ row i r, t.treq = s.treq ++ [Request.word r] ∧ allowedRequest s.cfg row i r := by
  cases step_cases h with
  | took w row hf hready =>
    refine (requestsReachOnlyTheRowsLocations s _ row hready.row_selected h).imp_right ?_
    rintro ⟨-, i, r, -, -, htreq, hallowed⟩
    exact ⟨row, i, r, htreq, hallowed⟩
  | quiet hf he => exact .inl rfl
  | presented w rest hf he hc => exact .inl rfl
  | answered w rest hp he => exact .inl (complete_treq ..)
  | ignored m rest hf he hm => exact .inl rfl
  | resetTo st rest cfg row hf he hs => exact .inl rfl

/-- Settles O7: the fields of a word are read back as they were written, and a step issues what its command may. -/
theorem requestWordLayout : Obligations.RequestWordLayout := by
  refine ⟨fun addr => ?read, fun addr reg data => ?byte, fun addr reg data => ?word, fun w => ⟨rfl, rfl, rfl, rfl⟩,
    fun s t h => ?step⟩
  case read =>
    exact ⟨kindField_requestWord .., addrField_requestWord .., regField_requestWord .., dataField_requestWord ..⟩
  case byte =>
    refine ⟨kindField_requestWord .., addrField_requestWord .., regField_requestWord .., ?_⟩
    rw [Request.word, dataField_requestWord, BitVec.toNat_setWidth_of_le (by decide)]
  case word =>
    exact ⟨kindField_requestWord .., addrField_requestWord .., regField_requestWord .., dataField_requestWord ..⟩
  case step =>
    refine (step_treq h).imp_right ?_
    rintro ⟨row, i, r, htreq, hallowed⟩
    exact ⟨r.word, htreq, allowedRequest_fields hallowed⟩

/-! ### When a response is given (R96) -/

/-- A response to the word `w` carries data only when it is the OK of an accessor. -/
def DataOnlyOfAccessor (w : CommandWord) (r : Response) : Prop :=
  r.data ≠ 0 → r.status = .ok ∧ ∃ ch, decode w = some (.rdcode ch) ∨ decode w = some (.rdfs ch)

/-- From `s` to `t` the word `w` was taken: it waits for its answer without a response, or one response was given. -/
def AnsweredOnce (w : CommandWord) (s t : State) : Prop :=
  (t.phase = .wait ∧ t.rsp = s.rsp) ∨
    (t.phase = .idle ∧ ∃ r : Response, t.rsp = s.rsp ++ [r.word] ∧ DataOnlyOfAccessor w r)

theorem dataOnlyOfAccessor_of_zero (w : CommandWord) (st : Status) : DataOnlyOfAccessor w ⟨st, 0⟩ :=
  fun hne => absurd rfl hne

theorem answeredOnce_raiseError (w : CommandWord) (e : Status) (s : State) : AnsweredOnce w s (raiseError e s) :=
  .inr ⟨rfl, _, rfl, dataOnlyOfAccessor_of_zero w e⟩

theorem answeredOnce_issue (w : CommandWord) (r : Request) (p : Pend) (s : State) : AnsweredOnce w s (issue r p s) :=
  .inl ⟨rfl, rfl⟩

theorem answeredOnce_respondField {w : CommandWord} {ch : ChannelIndex}
    (hw : decode w = some (.rdcode ch) ∨ decode w = some (.rdfs ch)) (field : Channel → BitVec 16) (row : Row)
    (s : State) : AnsweredOnce w s (respondField field ch row s) := by
  unfold respondField
  split
  · cases readChannel ch.toNat s with
    | some c => exact .inr ⟨rfl, _, rfl, fun _ => ⟨rfl, ch, hw⟩⟩
    | none => exact answeredOnce_raiseError ..
  · exact answeredOnce_raiseError ..

theorem answeredOnce_stepAWord (w : CommandWord) (row : Row) (s : State) : AnsweredOnce w s (stepAWord w row s) := by
  unfold stepAWord
  cases hd : decode w with
  | none => exact answeredOnce_raiseError ..
  | some i =>
    cases i with
    | begin => exact answeredOnce_issue ..
    | setrange req =>
      simp only [stepA, acceptSetrange]
      split
      · exact answeredOnce_raiseError ..
      · exact answeredOnce_issue ..
    | setvolt ch v =>
      simp only [stepA, acceptSetvolt]
      split
      · exact answeredOnce_issue ..
      · exact answeredOnce_raiseError ..
    | rdcode ch => exact answeredOnce_respondField (.inl hd) ..
    | rdfs ch => exact answeredOnce_respondField (.inr hd) ..

/-- An answer at hand gives the one response of a word that waits, with data 0. -/
theorem AnsweredOnce.settle {w : CommandWord} {s u : State} (h : AnsweredOnce w s u) :
    AnsweredOnce w s (settle u) := by
  rcases settle_cases u with ⟨a, rest, hp, -, hset⟩ | hset
  · rcases h with ⟨-, hrsp⟩ | ⟨hidle, -⟩
    · rw [hset]
      exact .inr ⟨complete_phase .., _, (complete_rsp ..).trans (congrArg (· ++ _) hrsp),
        dataOnlyOfAccessor_of_zero w _⟩
    · simp [hp] at hidle
  · rwa [hset]

theorem step_answeredOnce {s t : State} {w : CommandWord} (h : step s = .next t) (hf : fetch s = some w) :
    AnsweredOnce w s t := by
  rw [step_of_fetch hf] at h
  rcases accept_cases h with ⟨hwait, -⟩ | ⟨row, -, rfl⟩
  · simp [(fetch_some_idle hf).1] at hwait
  · exact (answeredOnce_stepAWord w row (takeWord s)).settle

/-- Step B gives one response, with data 0. -/
theorem step_of_nextMove_answer {s t : State} {w : AnswerWord} (hp : s.phase = .wait)
    (hm : nextMove s = some (.answer w)) (h : step s = .next t) :
    t.phase = .idle ∧ ∃ r : Response, t.rsp = s.rsp ++ [r.word] ∧ r.data = 0 := by
  obtain ⟨rest, he, -⟩ := step_of_nextMove hm
  rw [step_of_no_fetch (fetch_of_wait hp), envStep_of_answer hp he, Host.Outcome.next.injEq] at h
  subst h
  exact ⟨complete_phase .., _, complete_rsp .., rfl⟩

/-- A step that takes no word and no awaited answer gives no response. -/
theorem step_rsp_eq {s t : State} (h : step s = .next t) (hf : fetch s = none)
    (hm : s.phase = .idle ∨ ∀ w, nextMove s ≠ some (.answer w)) : t.rsp = s.rsp := by
  cases step_cases h with
  | took w row hf' hready => simp [hf] at hf'
  | quiet hf he => rfl
  | presented w rest hf he hc => rfl
  | answered w rest hp he =>
    rcases hm with hidle | hno
    · simp [hp] at hidle
    · exact absurd (nextMove_of_env hf he) (hno w)
  | ignored m rest hf he hm => rfl
  | resetTo st rest cfg row hf he hs => rfl

/-- Settles O36, by what the step takes: a word, the awaited answer, or neither. -/
theorem oneResponsePerCommand : Obligations.OneResponsePerCommand :=
  fun _ _ h => ⟨fun _ hf => step_answeredOnce h hf, fun hp _ hm => step_of_nextMove_answer hp hm h,
    fun hf hm => step_rsp_eq h hf hm⟩

/-! ### The status values (R97) -/

/-- A step gives no response, or one more, whose word is that of a response. -/
theorem step_rsp {s t : State} (h : step s = .next t) :
    t.rsp = s.rsp ∨ ∃ r : Response, t.rsp = s.rsp ++ [r.word] := by
  cases step_cases h with
  | took w row hf hready =>
    rcases step_answeredOnce h hf with ⟨-, hrsp⟩ | ⟨-, r, hrsp, -⟩
    · exact .inl hrsp
    · exact .inr ⟨r, hrsp⟩
  | quiet hf he => exact .inl rfl
  | presented w rest hf he hc => exact .inl rfl
  | answered w rest hp he => exact .inr ⟨_, complete_rsp ..⟩
  | ignored m rest hf he hm => exact .inl rfl
  | resetTo st rest cfg row hf he hs => exact .inl rfl

/-- Settles O6: the words a step adds are words of responses, whose status is one of the five. -/
theorem statusValuesStayBelowFive : Obligations.StatusValuesStayBelowFive := by
  refine ⟨fun w hw => absurd hw List.not_mem_nil, ?_⟩
  intro s t hs h w hw
  rcases step_rsp h with hrsp | ⟨r, hrsp⟩
  · exact hs w (hrsp ▸ hw)
  · rw [hrsp, List.mem_append, List.mem_singleton] at hw
    rcases hw with hold | rfl
    · exact hs w hold
    · rw [statusField_responseWord]
      exact statusCode_le r.status

end Sys2Proof.Machine
end

section
/-! SUPPORT. The statement of spec/40_readiness.md R120: what BEGIN does when its answer is at hand; and, said once for
the commands that issue a request, how such a command completes. -/

namespace Sys2Proof.Machine

/-- The big step's result, with the answer's OK bit pushed into its fields. -/
theorem bigAnswered_ofWord (r : Request) (p : Pend) (w : AnswerWord) (s : State) :
    bigAnswered r p (Answer.ofWord w) s =
      { arch := if w.getLsbD 8 = true then (commit p s).arch else s.arch, trace := [r],
        rsp := ⟨if w.getLsbD 8 = true then .ok else .transportError, 0⟩ } := by
  unfold bigAnswered
  rw [ofWord_ok]
  split <;> rfl

/-- Taking the word from the port adds nothing to what a command completes. -/
theorem Completed.of_takeWord {s t : State} {b : BigResult} (h : Completed (takeWord s) t b) : Completed s t b := by
  obtain ⟨harch, hcfg, hphase, htreq, hrsp⟩ := h
  exact ⟨harch, hcfg, hphase, htreq, hrsp⟩

/-- A command whose step A issues a request runs to its end when the answer is the next move: it commits what it latched
if the answer is OK, and keeps the architectural state otherwise (spec/70_reset_and_hazards.md R216). -/
theorem exec_completes_of_issue {i : Instr} {row : Row} {s : State} {r : Request} {p : Pend} {w : AnswerWord}
    {rest : List EnvMove} (hr : s.Ready row) (he : s.env = .answer w :: rest)
    (hA : stepA i row (takeWord s) = issue r p (takeWord s)) :
    ∃ t, exec i s = .next t ∧
      Completed s t
        { arch := if w.getLsbD 8 = true then (commit p (takeWord s)).arch else s.arch, trace := [r],
          rsp := ⟨if w.getLsbD 8 = true then .ok else .transportError, 0⟩ } := by
  have hset := settle_of_answer (issue_phase r p (takeWord s)) he
  have hdone := completed_bigAnswered r p (Answer.ofWord w) rest (takeWord s)
  rw [bigAnswered_ofWord, ← hset] at hdone
  exact ⟨_, by rw [exec_ready i hr, hA], hdone.of_takeWord⟩

/-- Settles O21: BEGIN issues its one read and latches nothing, so both branches of the commit keep the state. -/
theorem beginReadsOnceAndKeepsState : Obligations.BeginReadsOnceAndKeepsState := by
  refine ⟨decode_encode .begin, fun s row w rest hr he => ?_⟩
  have hA : stepA .begin row (takeWord s) = issue (.readByte s.cfg.devAddr) .begin (takeWord s) := rfl
  simpa using exec_completes_of_issue hr he hA

end Sys2Proof.Machine
end

section
/-! SUPPORT. The statement of spec/41_range.md R130: what SETRANGE does with an allowed value and with any other request;
and, said once for the commands that issue no request, how such a command completes. -/

namespace Sys2Proof.Machine

/-- A command whose step A responds at once runs to its end whatever the environment's next move is
(spec/70_reset_and_hazards.md R216). -/
theorem exec_completes_of_respond {i : Instr} {row : Row} {s : State} {st : Status} {d : BitVec 16}
    (hr : s.Ready row) (hA : stepA i row (takeWord s) = respond st d (takeWord s)) :
    ∃ t, exec i s = .next t ∧ Completed s t { arch := s.arch, trace := [], rsp := ⟨st, d⟩ } :=
  ⟨respond st d (takeWord s), by rw [exec_ready i hr, hA, settle_respond],
    ⟨rfl, rfl, rfl, (List.append_nil _).symm, rfl⟩⟩

/-- A request matches nothing exactly on a single-range row, or when it is neither allowed value (R130). -/
theorem matchRange_none_iff {row : Row} (hw : row.wf = true) {req : Operand} :
    matchRange row req = none ↔ row.nRanges = 1 ∨ ∀ k : Fin 2, req ≠ (row.fsMv k).setWidth 32 := by
  rw [Option.eq_none_iff_forall_ne_some]
  simp only [ne_eq, matchRange_some_iff hw]
  rcases Row.ranges_of_wf hw with ⟨h1, -⟩ | ⟨h2, -⟩
  · simp [h1]
  · simp [h2]

theorem stepA_setrange_of_match {row : Row} {req : Operand} {k : Fin 2} (h : matchRange row req = some k) (s : State) :
    stepA (.setrange req) row s =
      issue (writeRequest row.rangeWidth s.cfg.devAddr row.rangeReg (row.rangeData k)) (.range (row.fsMv k)) s := by
  rw [stepA, acceptSetrange, h]

theorem stepA_setrange_of_no_match {row : Row} {req : Operand} (h : matchRange row req = none) (s : State) :
    stepA (.setrange req) row s = respond .configurationError 0 s := by
  rw [stepA, acceptSetrange, h, raiseError]

/-- Settles O22: an allowed value issues its write and latches its full scale; any other request is answered at once. -/
theorem setrangeValidatesThenCommits : Obligations.SetrangeValidatesThenCommits := by
  refine ⟨fun req => decode_encode (.setrange req),
    fun s row hr => ⟨fun k w rest h2 he => ?allowed, fun req hreq => ?other⟩⟩
  case allowed =>
    have hmatch : matchRange row ((row.fsMv k).setWidth 32) = some k := (matchRange_some_iff hr.row_wf).2 ⟨h2, rfl⟩
    exact exec_completes_of_issue hr he (stepA_setrange_of_match hmatch _)
  case other =>
    have hmatch : matchRange row req = none := (matchRange_none_iff hr.row_wf).2 hreq
    exact exec_completes_of_respond hr (stepA_setrange_of_no_match hmatch _)

end Sys2Proof.Machine
end

section
/-! SUPPORT. The statements of spec/42_voltage.md R140 to R142: the clamp by its three ranges, `scale` as a rounded
quotient, and where its ties are. -/

namespace Sys2Proof.Machine

/-! ### The clamp (R140) -/

theorem clampLo_eq_false_iff {v : Operand} : clampLo v = false ↔ 0 ≤ sint32 v := by
  rw [← Bool.not_eq_true, clampLo_iff, not_lt]

theorem clampHi_eq_false_of_le {v : Operand} {fs : Millivolts} (h : sint32 v ≤ fs.toNat) : clampHi v fs = false := by
  rw [← Bool.not_eq_true, clampHi_iff]
  exact fun hhi => absurd hhi.2 (not_lt.2 h)

theorem clampMv_of_nonpos {v : Operand} (fs : Millivolts) (h : sint32 v ≤ 0) : clampMv v fs = 0 := by
  have hclamp := clampMv_toInt v fs
  apply BitVec.eq_of_toNat_eq
  have h0 : (0 : Millivolts).toNat = 0 := rfl
  omega

theorem clampMv_of_inside {v : Operand} {fs : Millivolts} (h0 : 0 ≤ sint32 v) (h : sint32 v ≤ fs.toNat) :
    ((clampMv v fs).toNat : Int) = sint32 v := by
  rw [clampMv_toInt, min_eq_left h, max_eq_right h0]

theorem clampMv_of_above {v : Operand} {fs : Millivolts} (h : (fs.toNat : Int) < sint32 v) : clampMv v fs = fs := by
  have hclamp := clampMv_toInt v fs
  apply BitVec.eq_of_toNat_eq
  omega

/-- Settles O12: the clamp and its two indicators in each of the three ranges of the request. -/
theorem clampSaturatesTheSignedRequest : Obligations.ClampSaturatesTheSignedRequest := by
  intro v fs
  refine ⟨fun hneg => ?below, fun h0 hle => ?inside, fun hgt => ?above, clampMv_le v fs⟩
  case below =>
    have hle : sint32 v ≤ fs.toNat := hneg.le.trans (Int.natCast_nonneg _)
    exact ⟨clampMv_of_nonpos fs hneg.le, (clampLo_iff v).2 hneg, clampHi_eq_false_of_le hle⟩
  case inside => exact ⟨clampMv_of_inside h0 hle, clampLo_eq_false_iff.2 h0, clampHi_eq_false_of_le hle⟩
  case above =>
    have h0 : 0 ≤ sint32 v := (Int.natCast_nonneg _).trans hgt.le
    exact ⟨clampMv_of_above hgt, clampLo_eq_false_iff.2 h0, (clampHi_iff v fs).2 ⟨h0, hgt⟩⟩

/-! ### The quotient (R141) -/

/-- The saturation branch of `scale` is never taken (R143). -/
theorem scaleQuotient_le {mvc fs : Millivolts} {maxc : Code} (hfs : 1 ≤ fs.toNat) (hle : mvc.toNat ≤ fs.toNat) :
    (scaleQuotient mvc maxc fs).toNat ≤ maxc.toNat := by
  have hmul : mvc.toNat * maxc.toNat ≤ maxc.toNat * fs.toNat :=
    (Nat.mul_le_mul_right _ hle).trans_eq (Nat.mul_comm ..)
  rw [scaleQuotient_toNat, ← Nat.lt_succ_iff, Nat.div_lt_iff_lt_mul hfs, Nat.succ_mul]
  omega

theorem scale_toNat {mvc fs : Millivolts} {maxc : Code} (hfs : 1 ≤ fs.toNat) (hle : mvc.toNat ≤ fs.toNat) :
    (scale mvc maxc fs).toNat = (mvc.toNat * maxc.toNat + fs.toNat / 2) / fs.toNat := by
  have hq := scaleQuotient_le (maxc := maxc) hfs hle
  have hmax := maxc.isLt
  have hbranch : scaleQuotient mvc maxc fs ≤ maxc.setWidth 32 := by
    rwa [BitVec.le_def, BitVec.toNat_setWidth_of_le (by decide)]
  rw [scale, if_pos hbranch, BitVec.toNat_setWidth, Nat.mod_eq_of_lt (by omega), scaleQuotient_toNat]

theorem scale_zero {fs : Millivolts} (maxc : Code) (hfs : 1 ≤ fs.toNat) : scale 0 maxc fs = 0 := by
  have hhalf : fs.toNat / 2 / fs.toNat = 0 := Nat.div_eq_of_lt (by omega)
  have hcode := scale_toNat (mvc := 0) (maxc := maxc) hfs (Nat.zero_le _)
  apply BitVec.eq_of_toNat_eq
  simpa [hhalf] using hcode

theorem scale_fullScale {fs : Millivolts} (maxc : Code) (hfs : 1 ≤ fs.toNat) : scale fs maxc fs = maxc := by
  have hhalf : fs.toNat / 2 / fs.toNat = 0 := Nat.div_eq_of_lt (by omega)
  apply BitVec.eq_of_toNat_eq
  rw [scale_toNat hfs le_rfl, Nat.mul_add_div hfs, hhalf, Nat.add_zero]

/-- Settles O13: the quotient fits, and half a full scale is dropped at both ends. -/
theorem scaleIsTheRoundedQuotient : Obligations.ScaleIsTheRoundedQuotient :=
  fun _ _ maxc hfs hle => ⟨scale_toNat hfs hle, scale_le _ _ _, scale_zero maxc hfs, scale_fullScale maxc hfs⟩

/-! ### Rounding and ties (R142) -/

/-- Adding `floor(f / 2)` before dividing by `f` rounds to the nearest integer, a tie up. -/
theorem add_half_div (n : Nat) {f : Nat} (hf : 0 < f) :
    (n + f / 2) / f = if f ≤ 2 * (n % f) then n / f + 1 else n / f := by
  have hhalf : f / 2 < f := Nat.div_lt_self hf (by decide)
  rw [Nat.add_div hf, Nat.div_eq_of_lt hhalf, Nat.mod_eq_of_lt hhalf]
  split_ifs <;> omega

/-- A quotient is an exact tie when twice the dividend is an odd multiple of the divisor. -/
theorem isTie_iff (n : Nat) {f : Nat} (hf : 0 < f) : 2 * (n % f) = f ↔ ∃ j, Odd j ∧ 2 * n = j * f := by
  constructor
  · intro htie
    refine ⟨2 * (n / f) + 1, odd_two_mul_add_one _, ?_⟩
    calc 2 * n = 2 * (n % f + f * (n / f)) := by rw [Nat.mod_add_div]
      _ = 2 * (n % f) + 2 * (n / f) * f := by ring
      _ = (2 * (n / f) + 1) * f := by rw [htie]; ring
  · rintro ⟨j, ⟨q, rfl⟩, hn⟩
    have hmod : 2 * n % (2 * f) = f := by
      rw [hn, show (2 * q + 1) * f = f + 2 * f * q by ring, Nat.add_mul_mod_self_left, Nat.mod_eq_of_lt (by omega)]
    rw [← Nat.mul_mod_mul_left, hmod]

theorem odd_le_ten_iff {k : Nat} : Odd k ∧ k ≤ 10 ↔ k ∈ [1, 3, 5, 7, 9] := by
  constructor
  · rintro ⟨⟨q, rfl⟩, hle⟩
    simp only [List.mem_cons, List.not_mem_nil]
    omega
  · intro hk
    fin_cases hk <;> decide

/-- For a largest code `5 * m` with `m` odd and prime to the full scale, the ties are at the odd tenths of the full
scale: `m` divides the odd multiple, and the rest of it is odd and at most 10. -/
theorem tie_at_odd_tenths {m f mvc : Nat} (hm : Odd m) (hcop : m.Coprime f) (hf : 0 < f) (hle : mvc ≤ f) :
    2 * (mvc * (5 * m) % f) = f ↔ ∃ k ∈ [1, 3, 5, 7, 9], 10 * mvc = k * f := by
  rw [isTie_iff _ hf]
  constructor
  · rintro ⟨j, hj, hn⟩
    have hdvd : m ∣ j * f := ⟨10 * mvc, by rw [← hn]; ring⟩
    obtain ⟨k, rfl⟩ := hcop.dvd_of_dvd_mul_right hdvd
    have hk : 10 * mvc = k * f := Nat.eq_of_mul_eq_mul_left hm.pos (by linarith)
    have hk10 : k ≤ 10 := Nat.le_of_mul_le_mul_right (hk ▸ Nat.mul_le_mul_left 10 hle) hf
    exact ⟨k, odd_le_ten_iff.1 ⟨(Nat.odd_mul.1 hj).2, hk10⟩, hk⟩
  · rintro ⟨k, hk, heq⟩
    refine ⟨m * k, hm.mul (odd_le_ten_iff.2 hk).1, ?_⟩
    calc 2 * (mvc * (5 * m)) = m * (10 * mvc) := by ring
      _ = m * k * f := by rw [heq, Nat.mul_assoc]

/-- The three resolutions of R142 are five times an odd number that is prime to its three full scales. -/
theorem resolution_factor :
    ∀ maxc ∈ [255, 4095, 65535], ∀ fs ∈ [2500, 5000, 10000],
      5 * (maxc / 5) = maxc ∧ (maxc / 5) % 2 = 1 ∧ (maxc / 5).Coprime fs ∧ 0 < fs := by decide

/-- Settles O14: the rounded quotient by its remainder, the odd tenths for the named resolutions, and the five codes. -/
theorem tiesRoundUp : Obligations.TiesRoundUp := by
  refine ⟨fun mvc fs maxc hfs hle => ?rounding, fun maxc hmaxc fs hfs mvc hle => ?ties, by decide⟩
  case rounding =>
    dsimp only
    rw [scale_toNat hfs hle, add_half_div _ hfs]
    refine ⟨rfl, by omega, ?_⟩
    split_ifs <;> omega
  case ties =>
    obtain ⟨h5, hodd, hcop, hpos⟩ := resolution_factor maxc hmaxc fs hfs
    rw [← h5]
    exact tie_at_odd_tenths (Nat.odd_iff.2 hodd) hcop hpos hle

end Sys2Proof.Machine
end

section
/-! SUPPORT. The statements of spec/42_voltage.md R144 to R146 and R150: the packed code, what is recorded, and what
SETVOLT does on a channel of the model and on any other index. -/

namespace Sys2Proof.Machine

/-! ### Packing (R144) -/

/-- WF7 for every code of the row: shifted to its place, it fits a word, and the byte of a byte row. -/
theorem Row.shifted_code_lt {row : Row} {code : Code} (hw : row.wf = true) (hc : code.toNat ≤ row.maxCode.toNat) :
    code.toNat * 2 ^ row.packShift < 2 ^ 16 ∧ (row.valWidth = .byte → code.toNat * 2 ^ row.packShift < 2 ^ 8) := by
  have hle : code.toNat * 2 ^ row.packShift ≤ row.maxCode.toNat * 2 ^ row.packShift := Nat.mul_le_mul_right _ hc
  obtain ⟨-, -, -, -, -, h7, -, -⟩ := Row.wf_checks hw
  unfold Row.wf7 at h7
  cases hwidth : row.valWidth with
  | byte =>
    simp only [hwidth, decide_eq_true_eq] at h7
    exact ⟨by omega, fun _ => by omega⟩
  | word =>
    simp only [hwidth, decide_eq_true_eq] at h7
    exact ⟨by omega, nofun⟩

theorem pack_toNat {row : Row} {code : Code} (hw : row.wf = true) (hc : code.toNat ≤ row.maxCode.toNat) :
    (pack code row).toNat = code.toNat * 2 ^ row.packShift := by
  obtain ⟨hword, hbyte⟩ := Row.shifted_code_lt hw hc
  have hshift : (code <<< row.packShift).toNat = code.toNat * 2 ^ row.packShift := by
    rw [BitVec.toNat_shiftLeft, Nat.shiftLeft_eq, Nat.mod_eq_of_lt hword]
  unfold pack
  cases hwidth : row.valWidth with
  | word => exact hshift
  | byte =>
    dsimp only
    rw [BitVec.toNat_setWidth_of_le (by decide), BitVec.toNat_setWidth, hshift, Nat.mod_eq_of_lt (hbyte hwidth)]

/-- Settles O16: the packed word is the number `code * 2 ^ pack_shift`, which is divided back and whose low bits are 0. -/
theorem packingLosesNoBit : Obligations.PackingLosesNoBit := by
  intro row code hw hc
  have hpack := pack_toNat hw hc
  refine ⟨hpack, ?recover, fun hbyte => ?fits, fun j hj => ?low⟩
  case recover =>
    apply BitVec.eq_of_toNat_eq
    rw [BitVec.toNat_ushiftRight, hpack, Nat.shiftRight_eq_div_pow, Nat.mul_div_cancel _ (Nat.two_pow_pos _)]
  case fits =>
    rw [hpack]
    exact (Row.shifted_code_lt hw hc).2 hbyte
  case low =>
    rw [← BitVec.testBit_toNat, hpack, Nat.testBit_mul_two_pow, decide_eq_false (Nat.not_le.2 hj), Bool.false_and]

/-! ### Recording (R145, R146) -/

theorem recorded_scaled {row : Row} (h : row.recKind = .scaled) (mvc : Millivolts) (code : Code) :
    recorded row mvc code = code := by rw [recorded, h]

theorem recorded_millivolt {row : Row} (h : row.recKind = .millivolt) (mvc : Millivolts) (code : Code) :
    recorded row mvc code = mvc := by rw [recorded, h]

/-- The zero-write rule of the current-output variant. -/
theorem newSnap_of_zero {row : Row} (h : row.zeroRestores = true) (fs : Millivolts) :
    newSnap row 0 fs = row.defaultFs := if_pos ⟨h, rfl⟩

theorem newSnap_of_not_zero {row : Row} {mvc : Millivolts} (h : row.zeroRestores = false ∨ mvc ≠ 0) (fs : Millivolts) :
    newSnap row mvc fs = fs := by
  refine if_neg fun hzero => ?_
  obtain ⟨hrestores, hmvc⟩ := hzero
  rcases h with hno | hne
  · exact Bool.false_ne_true (hno.symm.trans hrestores)
  · exact hne hmvc

/-- Settles O17: one lemma per rule; a request of 0 or below clamps to 0, and the write reads no recording kind. -/
theorem recordingRules : Obligations.RecordingRules := by
  intro row mvc fs code
  refine ⟨fun h => recorded_scaled h mvc code, fun h => recorded_millivolt h mvc code, fun h hmvc => ?zero,
    fun h => newSnap_of_not_zero h fs, fun v hv h => ?request, fun addr ch v kind => rfl⟩
  case zero =>
    rw [hmvc]
    exact newSnap_of_zero h fs
  case request =>
    rw [clampMv_of_nonpos fs hv]
    exact newSnap_of_zero h fs

/-! ### SETVOLT (R150) -/

theorem stepA_setvolt_of_channel {row : Row} {ch : ChannelIndex} (h : ch.toNat < row.nChannels) (v : Operand)
    (s : State) :
    stepA (.setvolt ch v) row s =
      issue (voltRequest row s.cfg.devAddr ch v s.curFs)
        (.volt ch (voltRecord row v s.curFs).rawCode (voltRecord row v s.curFs).fsSnap) s := by
  rw [stepA, acceptSetvolt, if_pos (channelOk_iff.2 h)]

theorem stepA_setvolt_of_no_channel {row : Row} {ch : ChannelIndex} (h : row.nChannels ≤ ch.toNat) (v : Operand)
    (s : State) : stepA (.setvolt ch v) row s = respond .channelError 0 s := by
  rw [stepA, acceptSetvolt, if_neg (mt channelOk_iff.1 (Nat.not_lt.2 h)), raiseError]

/-- Settles O23: a channel of the model issues its write and latches its record; any other index is answered at once. -/
theorem setvoltConvertsSendsAndRecords : Obligations.SetvoltConvertsSendsAndRecords := by
  refine ⟨fun ch v => decode_encode (.setvolt ch v),
    fun s row ch v hr => ⟨fun w rest hlt he => ?channel, fun hge => ?other⟩⟩
  case channel => exact exec_completes_of_issue hr he (stepA_setvolt_of_channel hlt v _)
  case other => exact exec_completes_of_respond hr (stepA_setvolt_of_no_channel hge v _)

end Sys2Proof.Machine
end

section
/-! SUPPORT. The statements of spec/43_accessors.md R170 and R171: what an accessor answers for a channel of the model and
for any other index, said once for the field it reads, and RDCODE and RDFS as its two instances. -/

namespace Sys2Proof.Machine

/-- A channel of the model has an entry, whose field is answered. -/
theorem respondField_of_channel {row : Row} {ch : ChannelIndex} {s : State} (h : ch.toNat < row.nChannels)
    (hlen : s.ch.length = row.nChannels) (field : Channel → BitVec 16) :
    ∃ c, s.ch[ch.toNat]? = some c ∧ respondField field ch row s = respond .ok (field c) s := by
  have hc : s.ch[ch.toNat]? = some s.ch[ch.toNat] := List.getElem?_eq_getElem (hlen ▸ h)
  refine ⟨_, hc, ?_⟩
  rw [respondField, if_pos (channelOk_iff.2 h), readChannel, hc]

theorem respondField_of_no_channel {row : Row} {ch : ChannelIndex} (h : row.nChannels ≤ ch.toNat)
    (field : Channel → BitVec 16) (s : State) : respondField field ch row s = respond .channelError 0 s := by
  rw [respondField, if_neg (mt channelOk_iff.1 (Nat.not_lt.2 h)), raiseError]

/-- A command whose step A is an accessor's answers the field of a channel of the model, without a request. -/
theorem exec_completes_of_read {i : Instr} {field : Channel → BitVec 16} {ch : ChannelIndex} {s : State} {row : Row}
    (hA : stepA i = respondField field ch) (hr : s.Ready row) (hlen : s.ch.length = row.nChannels)
    (h : ch.toNat < row.nChannels) :
    ∃ c t, s.ch[ch.toNat]? = some c ∧ exec i s = .next t ∧
      Completed s t { arch := s.arch, trace := [], rsp := ⟨.ok, field c⟩ } := by
  obtain ⟨c, hc, hread⟩ := respondField_of_channel (s := takeWord s) h hlen field
  obtain ⟨t, ht, hdone⟩ := exec_completes_of_respond hr ((congrFun₂ hA ..).trans hread)
  exact ⟨c, t, hc, ht, hdone⟩

/-- A command whose step A is an accessor's answers `ChannelError` for any other index. -/
theorem exec_completes_of_read_no_channel {i : Instr} {field : Channel → BitVec 16} {ch : ChannelIndex} {s : State}
    {row : Row} (hA : stepA i = respondField field ch) (hr : s.Ready row) (h : row.nChannels ≤ ch.toNat) :
    ∃ t, exec i s = .next t ∧ Completed s t { arch := s.arch, trace := [], rsp := ⟨.channelError, 0⟩ } :=
  exec_completes_of_respond hr ((congrFun₂ hA ..).trans (respondField_of_no_channel h field _))

/-- Settles O24: RDCODE is the accessor of `RAW_CODE`. -/
theorem rdcodeAnswersTheRecord : Obligations.RdcodeAnswersTheRecord := by
  refine ⟨fun ch => decode_encode (.rdcode ch), fun s row ch hr hlen => ⟨fun hlt => ?channel, fun hge => ?other⟩⟩
  case channel => exact exec_completes_of_read (field := Channel.rawCode) rfl hr hlen hlt
  case other => exact exec_completes_of_read_no_channel (field := Channel.rawCode) rfl hr hge

/-- Settles O25: RDFS is the accessor of `FS_SNAP`. -/
theorem rdfsAnswersTheSnapshot : Obligations.RdfsAnswersTheSnapshot := by
  refine ⟨fun ch => decode_encode (.rdfs ch), fun s row ch hr hlen => ⟨fun hlt => ?channel, fun hge => ?other⟩⟩
  case channel => exact exec_completes_of_read (field := Channel.fsSnap) rfl hr hlen hlt
  case other => exact exec_completes_of_read_no_channel (field := Channel.fsSnap) rfl hr hge

end Sys2Proof.Machine
end

section
/-! SUPPORT. The statements of spec/60_exceptions.md R181 to R187: all that a step which answers with an error can have
done, said once with the cause of the error, and from it that errors are precise and each has its own cause. -/

namespace Sys2Proof.Machine

/-! ### The answer of a step -/

theorem statusCode_injective : Function.Injective Status.code := by
  intro a b
  cases a <;> cases b <;> decide

theorem responseWord_inj {r r' : Response} : r.word = r'.word ↔ r = r' := by
  refine ⟨fun h => ?_, fun h => h ▸ rfl⟩
  have hstatus : r.status = r'.status :=
    statusCode_injective (by rw [← statusField_responseWord, h, statusField_responseWord])
  have hdata : r.data = r'.data := by rw [← dataField_responseWord, h, dataField_responseWord]
  calc
    r = ⟨r.status, r.data⟩ := rfl
    _ = r' := by rw [hstatus, hdata]

/-- Two responses given from one record are the same response. -/
theorem response_eq_of_given {r r' : Response} {l : List ResponseWord} (h : l ++ [r.word] = l ++ [r'.word]) : r = r' :=
  responseWord_inj.1 (List.singleton_inj.1 (List.append_cancel_left h))

/-- Step B answers with an error only when the transport failed, and then with `TransportError`. -/
theorem complete_gives_error {a : AnswerWord} {u : State} {r : Response}
    (h : (complete (Answer.ofWord a) u).rsp = u.rsp ++ [r.word]) (hr : r.status ≠ .ok) :
    a.getLsbD 8 = false ∧ r = ⟨.transportError, 0⟩ ∧ complete (Answer.ofWord a) u = raiseError .transportError u := by
  rw [complete_rsp, ofWord_ok] at h
  obtain rfl := response_eq_of_given h
  cases hok : a.getLsbD 8 with
  | true => simp [hok] at hr
  | false => exact ⟨rfl, rfl, complete_of_fail hok u⟩

/-- A command that issued a request answers in the same step with an error only when the answer at hand is a failure. -/
theorem settle_issue_gives_error {q : Request} {p : Pend} {u : State} {r : Response}
    (h : (settle (issue q p u)).rsp = u.rsp ++ [r.word]) (hr : r.status ≠ .ok) :
    ∃ a rest, u.env = .answer a :: rest ∧ a.getLsbD 8 = false ∧ r = ⟨.transportError, 0⟩ ∧
      settle (issue q p u) = raiseError .transportError { issue q p u with env := rest } := by
  rcases settle_cases (issue q p u) with ⟨a, rest, -, he, hset⟩ | hset
  · rw [hset] at h ⊢
    obtain ⟨hfail, hresp, hstate⟩ := complete_gives_error h hr
    exact ⟨a, rest, he, hfail, hresp, hstate⟩
  · simp [hset] at h

/-! ### How step A of a word ends, and why -/

/-- The word is a command that carries the channel operand `ch`. -/
def CarriesChannel (w : CommandWord) (ch : ChannelIndex) : Prop :=
  (∃ v, decode w = some (.setvolt ch v)) ∨ decode w = some (.rdcode ch) ∨ decode w = some (.rdfs ch)

/-- The word is answered with the error `e` before any request, for the cause that the rule of `e` gives. -/
inductive Rejects (row : Row) (s : State) (w : CommandWord) : Status → Prop where
  /-- R181, spec/30_encoding.md R95 -/
  | illegal (hd : decode w = none) : Rejects row s w .illegalCommand
  /-- R182; in a state that misses an entry of the model, that entry too (log 14) -/
  | channel (ch : ChannelIndex) (hw : CarriesChannel w ch)
      (hch : row.nChannels ≤ ch.toNat ∨ s.ch.length ≤ ch.toNat) : Rejects row s w .channelError
  /-- R183 -/
  | range (req : Operand) (hd : decode w = some (.setrange req)) (hm : matchRange row req = none) :
      Rejects row s w .configurationError

/-- How step A of the word ends: the value of an accessor, an error for its cause, or the request of another command. -/
inductive StepAOutcome (row : Row) (s : State) (w : CommandWord) : State → Prop where
  | read (d : BitVec 16) : StepAOutcome row s w (respond .ok d s)
  | rejected (e : Status) (h : Rejects row s w e) : StepAOutcome row s w (raiseError e s)
  | issued (i : Instr) (r : Request) (p : Pend) (hd : decode w = some i) (hi : ∀ ch, i ≠ .rdcode ch ∧ i ≠ .rdfs ch) :
      StepAOutcome row s w (issue r p s)

theorem respondField_outcome {row : Row} {s : State} {w : CommandWord} {ch : ChannelIndex} (hw : CarriesChannel w ch)
    (field : Channel → BitVec 16) : StepAOutcome row s w (respondField field ch row s) := by
  by_cases hlt : ch.toNat < row.nChannels
  · rw [respondField, if_pos (channelOk_iff.2 hlt)]
    cases hread : readChannel ch.toNat s with
    | some c => exact .read (field c)
    | none => exact .rejected _ (.channel ch hw (.inr (List.getElem?_eq_none_iff.1 hread)))
  · rw [respondField_of_no_channel (Nat.not_lt.1 hlt)]
    exact .rejected _ (.channel ch hw (.inl (Nat.not_lt.1 hlt)))

theorem stepA_outcome {row : Row} {w : CommandWord} {i : Instr} (hd : decode w = some i) (s : State) :
    StepAOutcome row s w (stepA i row s) := by
  cases i with
  | begin => exact .issued _ _ _ hd (by simp)
  | setrange req =>
    cases hm : matchRange row req with
    | none => exact stepA_setrange_of_no_match hm s ▸ .rejected _ (.range req hd hm)
    | some k => exact stepA_setrange_of_match hm s ▸ .issued _ _ _ hd (by simp)
  | setvolt ch v =>
    by_cases hlt : ch.toNat < row.nChannels
    · exact stepA_setvolt_of_channel hlt v s ▸ .issued _ _ _ hd (by simp)
    · have hge := Nat.not_lt.1 hlt
      exact stepA_setvolt_of_no_channel hge v s ▸ .rejected _ (.channel ch (.inl ⟨v, hd⟩) (.inl hge))
  | rdcode ch => exact respondField_outcome (.inr (.inl hd)) _
  | rdfs ch => exact respondField_outcome (.inr (.inr hd)) _

theorem stepAWord_outcome (row : Row) (w : CommandWord) (s : State) : StepAOutcome row s w (stepAWord w row s) := by
  rw [stepAWord]
  cases hd : decode w with
  | none => exact .rejected _ (.illegal hd)
  | some i => exact stepA_outcome hd s

/-! ### All that a step with an error response can have done -/

/-- A step from `s` that answered with the error response `r`, and the state it leaves (R186). -/
inductive ErrorStep (s : State) : Response → State → Prop where
  /-- decode or validation failed: no request -/
  | rejected (w : CommandWord) (row : Row) (e : Status) (hf : fetch s = some w) (hr : s.Ready row)
      (h : Rejects row (takeWord s) w e) : ErrorStep s ⟨e, 0⟩ (raiseError e (takeWord s))
  /-- the request of the word that this step took failed -/
  | failed (w : CommandWord) (i : Instr) (q : Request) (p : Pend) (a : AnswerWord) (rest : List EnvMove)
      (hf : fetch s = some w) (hd : decode w = some i) (hi : ∀ ch, i ≠ .rdcode ch ∧ i ≠ .rdfs ch)
      (he : s.env = .answer a :: rest) (hfail : a.getLsbD 8 = false) :
      ErrorStep s ⟨.transportError, 0⟩ (raiseError .transportError { issue q p (takeWord s) with env := rest })
  /-- the request outstanding in `WAIT` failed -/
  | failedInWait (a : AnswerWord) (rest : List EnvMove) (hp : s.phase = .wait) (he : s.env = .answer a :: rest)
      (hfail : a.getLsbD 8 = false) :
      ErrorStep s ⟨.transportError, 0⟩ (raiseError .transportError { s with env := rest })

theorem took_errorStep {s : State} {row : Row} {w : CommandWord} {r : Response} (hf : fetch s = some w)
    (hready : s.Ready row) (h : (settle (stepAWord w row (takeWord s))).rsp = s.rsp ++ [r.word]) (hr : r.status ≠ .ok) :
    ErrorStep s r (settle (stepAWord w row (takeWord s))) := by
  have hout := stepAWord_outcome row w (takeWord s)
  generalize stepAWord w row (takeWord s) = u at hout h
  cases hout with
  | read d =>
    obtain rfl := response_eq_of_given h
    exact absurd rfl hr
  | rejected e hrej =>
    have hset : settle (raiseError e (takeWord s)) = raiseError e (takeWord s) := settle_respond ..
    rw [hset] at h ⊢
    obtain rfl := response_eq_of_given h
    exact .rejected w row e hf hready hrej
  | issued i q p hd hi =>
    obtain ⟨a, rest, he, hfail, rfl, hset⟩ := settle_issue_gives_error (u := takeWord s) h hr
    exact hset ▸ .failed w i q p a rest hf hd hi he hfail

theorem step_errorStep {s t : State} {r : Response} (hs : step s = .next t) (h : t.rsp = s.rsp ++ [r.word])
    (hr : r.status ≠ .ok) : ErrorStep s r t := by
  cases step_cases hs with
  | took w row hf hready => exact took_errorStep hf hready h hr
  | quiet hf he => simp at h
  | presented w rest hf he hc => simp at h
  | answered a rest hp he =>
    obtain ⟨hfail, rfl, hstate⟩ := complete_gives_error (u := { s with env := rest }) h hr
    exact hstate ▸ .failedInWait a rest hp he hfail
  | ignored m rest hf he hm => simp at h
  | resetTo st rest cfg row hf he hs => simp at h

/-! ### The statements -/

/-- Settles O30: each of the three commands is answered at once by its own check of the index. -/
theorem channelGuard : Obligations.ChannelGuard := by
  intro s row ch v hr hge i hi
  simp only [List.mem_cons, List.not_mem_nil, or_false] at hi
  rcases hi with rfl | rfl | rfl
  · exact exec_completes_of_respond hr (stepA_setvolt_of_no_channel hge v _)
  · exact exec_completes_of_read_no_channel (field := Channel.rawCode) rfl hr hge
  · exact exec_completes_of_read_no_channel (field := Channel.fsSnap) rfl hr hge

/-- Settles O31: a request that matches no allowed value is answered at once, and one that matches issues its write,
after which the only error is the transport's. -/
theorem rangeSwitchExclusivity : Obligations.RangeSwitchExclusivity := by
  intro s t row req hr h
  refine ⟨fun hbad => ?rejected, fun h2 hreq => ?issued⟩
  case rejected =>
    have hnone : row.nRanges = 1 ∨ ∀ k : Fin 2, req ≠ (row.fsMv k).setWidth 32 :=
      hbad.imp_right fun hne => Fin.forall_fin_two.2 hne
    obtain ⟨t', ht', hdone⟩ := (setrangeValidatesThenCommits.2 s row hr).2 req hnone
    obtain rfl : t' = t := Host.Outcome.next.inj (ht'.symm.trans h)
    exact hdone
  case issued =>
    obtain ⟨k, hk⟩ : ∃ k : Fin 2, req = (row.fsMv k).setWidth 32 := Fin.exists_fin_two.2 hreq
    have hmatch : matchRange row req = some k := (matchRange_some_iff hr.row_wf).2 ⟨h2, hk⟩
    rw [exec_ready _ hr, stepA_setrange_of_match hmatch, Host.Outcome.next.injEq] at h
    subst h
    refine ⟨fun hrsp => ?_, by simp [settle_treq]⟩
    obtain ⟨-, -, -, -, hresp, -⟩ := settle_issue_gives_error (u := takeWord s) hrsp (by decide)
    simp at hresp

/-- Settles O32: each of the three ways to an error keeps the architectural state, and only the one through this step's
own transport call issues a request. -/
theorem errorsArePrecise : Obligations.ErrorsArePrecise := by
  intro s t st d h hrsp hst
  cases step_errorStep (r := ⟨st, d⟩) h hrsp hst with
  | rejected w row e hf hr hrej =>
    have hne : st ≠ .transportError := by rintro rfl; cases hrej
    exact ⟨rfl, rfl, rfl, rfl, fun _ => ⟨hr.idle, rfl⟩, fun heq => absurd heq hne, fun heq => absurd heq hne⟩
  | failed w i q p a rest hf hd hi he hfail =>
    refine ⟨rfl, rfl, rfl, rfl, fun hne => absurd rfl hne, fun _ _ => ⟨q.word, rfl⟩, fun _ hp => ?_⟩
    simp [(fetch_some_idle hf).1] at hp
  | failedInWait a rest hp he hfail =>
    exact ⟨rfl, rfl, rfl, rfl, fun hne => absurd rfl hne, fun _ hidle => by simp [hp] at hidle, fun _ _ => rfl⟩

/-- Settles O33: an illegal word and a bad operand are answered by step A, and an error of the transport in `IDLE` comes
with the request of the same step. -/
theorem errorPriority : Obligations.ErrorPriority := by
  intro s row w hr hc
  have hexec {i : Instr} (hd : decode w = some i) : step s = exec i s :=
    stepRunsTheDecodedCommand s w i hr.idle hc hd
  refine ⟨fun hd => ?decode, fun ch v hge hd => ?channel, fun req hd hreq => ?range, fun t d h hrsp => ?transport⟩
  case decode => exact illegalWordsAreAnsweredAndDoNothing.2.2 s row w hr hc hd
  case channel =>
    rcases hd with hd | hd | hd <;> rw [hexec hd] <;> exact channelGuard s row ch v hr hge _ (by simp)
  case range =>
    rw [hexec hd]
    exact (setrangeValidatesThenCommits.2 s row hr).2 req hreq
  case transport =>
    obtain ⟨-, -, -, -, -, hissued, -⟩ := errorsArePrecise s t .transportError d h hrsp (by decide)
    exact hissued rfl hr.idle

/-- Settles O34: the cause is the one `Rejects` gives, where by the invariant no entry of the model is missing, or the
failed answer. -/
theorem eachErrorHasItsCause : Obligations.EachErrorHasItsCause := by
  intro s t row st d hinv h hrsp
  by_cases hst : st = .ok
  · subst hst
    exact ⟨nofun, nofun, nofun, nofun⟩
  cases step_errorStep (r := ⟨st, d⟩) h hrsp hst with
  | rejected w row' e hf hr hrej =>
    obtain rfl : row' = row := Option.some.inj (hr.row_selected.symm.trans hinv.row_selected)
    cases hrej with
    | illegal hd => exact ⟨nofun, nofun, nofun, fun _ => ⟨w, hf, hd⟩⟩
    | channel ch hw hch =>
      have hge : row'.nChannels ≤ ch.toNat := hch.elim id fun hlen => hinv.ch_length ▸ hlen
      exact ⟨fun _ => ⟨w, ch, hf, hge, hw⟩, nofun, nofun, nofun⟩
    | range req hd hm =>
      exact ⟨nofun, fun _ => ⟨w, req, hf, hd, (matchRange_none_iff hr.row_wf).1 hm⟩, nofun, nofun⟩
  | failed w i q p a rest hf hd hi he hfail =>
    exact ⟨nofun, nofun, fun _ => ⟨a, rest, he, hfail, .inr ⟨w, i, hf, hd, hi⟩⟩, nofun⟩
  | failedInWait a rest hp he hfail =>
    exact ⟨nofun, nofun, fun _ => ⟨a, rest, he, hfail, .inl hp⟩, nofun⟩

end Sys2Proof.Machine
end

section
/-! SUPPORT. The statements of spec/70_reset_and_hazards.md R212 and R216 to R218: what step A leaves in `WAIT`, all
that a step from `WAIT` can do, said once, and that an answer which nothing awaits is ignored. -/

namespace Sys2Proof.Machine

/-! ### Step A and step B (R216) -/

/-- A command whose step A issues a request waits with its update latched when no answer is at hand. -/
theorem exec_waits_of_issue {i : Instr} {row : Row} {s : State} {r : Request} {p : Pend} (hr : s.Ready row)
    (he : ∀ w rest, s.env ≠ .answer w :: rest) (hA : stepA i row (takeWord s) = issue r p (takeWord s)) :
    ∃ t, exec i s = .next t ∧ Waiting s t r p := by
  have hwait : settle (issue r p (takeWord s)) = issue r p (takeWord s) := settle_of_no_answer he
  exact ⟨issue r p (takeWord s), by rw [exec_ready i hr, hA, hwait], ⟨rfl, rfl, rfl, rfl, rfl, rfl⟩⟩

/-- Step B completes the command in progress: without a request, it commits what is latched or answers the failure. -/
theorem completed_complete (a : Answer) (rest : List EnvMove) (s : State) :
    Completed s (complete a { s with env := rest })
      { arch := if a.ok then (commit s.pend s).arch else s.arch, trace := [],
        rsp := ⟨if a.ok then .ok else .transportError, 0⟩ } where
  arch := by
    rw [complete_arch]
    split
    · exact commit_arch_congr s.pend rfl
    · rfl
  cfg := by simp
  phase := by simp
  treq := by simp
  rsp := by simp

/-- Settles O39: the three commands with a request latch in their step A what step B commits. -/
theorem acceptLatchesAndCompleteCommits : Obligations.AcceptLatchesAndCompleteCommits := by
  refine ⟨fun s row hr he => ⟨?begin, fun k h2 => ?setrange, fun ch v hlt => ?setvolt⟩, fun s w rest hp he => ?stepB⟩
  case begin => exact exec_waits_of_issue hr he rfl
  case setrange =>
    have hmatch : matchRange row ((row.fsMv k).setWidth 32) = some k := (matchRange_some_iff hr.row_wf).2 ⟨h2, rfl⟩
    exact exec_waits_of_issue hr he (stepA_setrange_of_match hmatch _)
  case setvolt => exact exec_waits_of_issue hr he (stepA_setvolt_of_channel hlt v _)
  case stepB =>
    have hdone := completed_complete (Answer.ofWord w) rest s
    rw [ofWord_ok] at hdone
    refine ⟨_, (step_of_no_fetch (fetch_of_wait hp)).trans (envStep_of_answer hp he), ?_⟩
    cases hpend : s.pend <;> rw [hpend] at hdone <;> exact hdone

/-! ### A step from `WAIT` (R217, R218) -/

/-- From `s` to `t` the machine waits on: a word at the port is held, and at most one move of the environment went. -/
structure Held (s t : State) : Prop where
  phase : t.phase = .wait
  arch : t.arch = s.arch
  cfg : t.cfg = s.cfg
  pend : t.pend = s.pend
  rsp : t.rsp = s.rsp
  treq : t.treq = s.treq
  cmdPort : ∀ w, s.cmdPort = some w → t.cmdPort = some w
  env : t.env = s.env.tail

/-- All that a step from `WAIT` can do: wait on, complete the command on the awaited answer, or reset. -/
inductive WaitStep (s : State) : State → Prop where
  | held {t : State} (h : Held s t) : WaitStep s t
  | answered (w : AnswerWord) (rest : List EnvMove) (hm : nextMove s = some (.answer w)) :
      WaitStep s (complete (Answer.ofWord w) { s with env := rest })
  | resetTo (st : Straps) (rest : List EnvMove) (cfg : Cfg) (row : Row) (hm : nextMove s = some (.reset st)) :
      WaitStep s (beginRun { s with env := rest } (State.resetWith cfg row))

theorem step_of_wait {s t : State} (hp : s.phase = .wait) (h : step s = .next t) : WaitStep s t := by
  have hf : fetch s = none := fetch_of_wait hp
  cases step_cases h with
  | took w row hf' hr => simp [hf] at hf'
  | quiet _ he => exact .held ⟨hp, rfl, rfl, rfl, rfl, rfl, fun _ hc => hc, by simp [he]⟩
  | presented w rest _ he hnone =>
    exact .held ⟨hp, rfl, rfl, rfl, rfl, rfl, fun _ hc => by simp [hnone] at hc, by simp [he]⟩
  | answered w rest _ he => exact .answered w rest (nextMove_of_env hf he)
  | ignored m rest _ he _ => exact .held ⟨hp, rfl, rfl, rfl, rfl, rfl, fun _ hc => hc, by simp [he]⟩
  | resetTo st rest cfg row _ he _ => exact .resetTo st rest cfg row (nextMove_of_env hf he)

/-- Settles O40: step B and a reset leave `WAIT`, and step B leaves the port as it is. -/
theorem waitHoldsCommandsAndState : Obligations.WaitHoldsCommandsAndState := by
  intro s hp
  refine ⟨fetch_of_wait hp, fun i => (exec_eq_accept i s).trans (accept_of_wait _ hp), fun t h => ?_⟩
  cases step_of_wait hp h with
  | held hheld =>
    obtain ⟨-, harch, hcfg, hpend, hrsp, htreq, hport, -⟩ := hheld
    exact ⟨fun _ => ⟨harch, hcfg, hpend, hrsp, htreq⟩, fun w hc _ => hport w hc⟩
  | answered a rest hm => exact ⟨fun hwait => by simp at hwait, fun w hc _ => (complete_cmdPort ..).trans hc⟩
  | resetTo st rest cfg row hm => exact ⟨fun hwait => by simp at hwait, fun w _ hno => absurd hm (hno st)⟩

/-- Without an answer and a reset to come, a step from `WAIT` waits on. -/
theorem held_of_silent {s t : State} (hp : s.phase = .wait) (h : step s = .next t)
    (hsilent : ∀ m ∈ s.env, m.isAnswer = false ∧ m.isReset = false) : Held s t := by
  have hnext : ∀ m, nextMove s = some m → m.isAnswer = false ∧ m.isReset = false := fun m hm => by
    obtain ⟨rest, he, -⟩ := step_of_nextMove hm
    exact hsilent m (by simp [he])
  cases step_of_wait hp h with
  | held hheld => exact hheld
  | answered w rest hm => exact absurd (hnext _ hm).1 (by simp [EnvMove.isAnswer])
  | resetTo st rest cfg row hm => exact absurd (hnext _ hm).2 (by simp [EnvMove.isReset])

/-- Settles O41: by all that a step from `WAIT` can do, and then by induction on the number of steps. -/
theorem silentTransportHangsForEver : Obligations.SilentTransportHangsForEver := by
  refine ⟨fun s t hp h hidle => ?exits, fun n => ?forEver⟩
  case exits =>
    cases step_of_wait hp h with
    | held hheld => simp [hheld.phase] at hidle
    | answered w rest hm => exact .inl ⟨w, hm⟩
    | resetTo st rest cfg row hm => exact .inr ⟨st, hm⟩
  case forEver =>
    induction n with
    | zero =>
      intro s t hp _ h
      obtain rfl : s = t := Host.Outcome.next.inj ((run_zero s).symm.trans h)
      exact ⟨hp, rfl, rfl⟩
    | succ n ih =>
      intro s t hp hsilent h
      rcases step_next_or_refused s with ⟨u, hu⟩ | ⟨r, hr⟩
      · have hheld := held_of_silent hp hu hsilent
        rw [run_succ_next hu] at h
        obtain ⟨hwait, hrsp, harch⟩ :=
          ih u t hheld.phase (fun m hm => hsilent m (List.mem_of_mem_tail (hheld.env ▸ hm))) h
        exact ⟨hwait, hrsp.trans hheld.rsp, harch.trans hheld.arch⟩
      · simp [run_succ_refused hr] at h

/-! ### An answer that nothing awaits (R212) -/

/-- An answer in `IDLE`, and an answer marked as late in any phase, only leaves the moves to come. -/
theorem step_of_unawaited_answer {s t : State} {m : EnvMove} (hm : nextMove s = some m)
    (hw : (∃ w, m = .lateAnswer w) ∨ (s.phase = .idle ∧ ∃ w, m = .answer w)) (h : step s = .next t) :
    ∃ rest, t = { s with env := rest } := by
  obtain ⟨rest, -, hstep⟩ := step_of_nextMove hm
  have hnext : envMove m { s with env := rest } = .next { s with env := rest } := by
    rcases hw with ⟨w, rfl⟩ | ⟨hp, w, rfl⟩
    · rfl
    · exact congrArg Host.Outcome.next (takeAnswer_of_idle w hp)
  exact ⟨rest, (Host.Outcome.next.inj (hnext.symm.trans (hstep.symm.trans h))).symm⟩

/-- Settles O45: the reset state is in `IDLE` with no word at the port, so the old answer is its next move and nothing
awaits it. -/
theorem resetDropsThePendingUpdate : Obligations.ResetDropsThePendingUpdate := by
  refine ⟨fun s t u st w _ hm h henv hu => ?afterReset, fun s t w hm h => ?late⟩
  case afterReset =>
    obtain ⟨rest, cfg, row, -, rfl⟩ := step_of_nextMove_reset hm h
    have hanswer : nextMove (beginRun { s with env := rest } (State.resetWith cfg row)) = some (.answer w) := henv
    obtain ⟨_, rfl⟩ := step_of_unawaited_answer hanswer (.inr ⟨rfl, w, rfl⟩) hu
    exact ⟨rfl, rfl, rfl, rfl, rfl, rfl, fun c hc => by rw [List.eq_of_mem_replicate hc]⟩
  case late =>
    obtain ⟨_, rfl⟩ := step_of_unawaited_answer hm (.inl ⟨w, rfl⟩) h
    exact ⟨rfl, rfl, rfl, rfl, rfl⟩

end Sys2Proof.Machine
end

section
/-! SUPPORT. The derived rules of spec/42_voltage.md: that nothing wraps (R143), monotonicity (R151), out-of-range
requests (R152) and the round trip (R153). -/

namespace Sys2Proof.Machine

/-! ### Widths (R143) -/

/-- Settles O15: two 16-bit factors bound the product, and half a full scale is at most 32767. -/
theorem converterNeverWraps : Obligations.ConverterNeverWraps := by
  intro mvc fs maxc hfs hle
  have hmvc := mvc.isLt; have hmaxc := maxc.isLt; have hfull := fs.isLt
  have hprod : mvc.toNat * maxc.toNat ≤ 65535 * 65535 := Nat.mul_le_mul (by omega) (by omega)
  exact ⟨scaleNum_toNat mvc maxc, dividend_toNat mvc maxc fs, by omega, by omega, scaleQuotient_le hfs hle⟩

/-! ### Monotonicity (R151) -/

theorem clampMv_mono {v1 v2 : Operand} (fs : Millivolts) (h : sint32 v1 ≤ sint32 v2) :
    (clampMv v1 fs).toNat ≤ (clampMv v2 fs).toNat := by
  have h1 := clampMv_toInt v1 fs; have h2 := clampMv_toInt v2 fs
  omega

theorem sentCode_le (row : Row) (v : Operand) (fs : Millivolts) : (sentCode row v fs).toNat ≤ row.maxCode.toNat :=
  scale_le _ _ _

theorem sentCode_toNat (row : Row) (v : Operand) {fs : Millivolts} (hfs : 1 ≤ fs.toNat) :
    (sentCode row v fs).toNat = ((clampMv v fs).toNat * row.maxCode.toNat + fs.toNat / 2) / fs.toNat :=
  scale_toNat hfs (clampMv_le v fs)

theorem sentCode_mono (row : Row) {v1 v2 : Operand} {fs : Millivolts} (hfs : 1 ≤ fs.toNat)
    (h : sint32 v1 ≤ sint32 v2) : (sentCode row v1 fs).toNat ≤ (sentCode row v2 fs).toNat := by
  rw [sentCode_toNat row v1 hfs, sentCode_toNat row v2 hfs]
  exact Nat.div_le_div_right (Nat.add_le_add_right (Nat.mul_le_mul_right _ (clampMv_mono fs h)) _)

theorem voltRecord_rawCode_scaled {row : Row} (h : row.recKind = .scaled) (v : Operand) (fs : Millivolts) :
    (voltRecord row v fs).rawCode = sentCode row v fs := recorded_scaled h _ _

theorem voltRecord_rawCode_millivolt {row : Row} (h : row.recKind = .millivolt) (v : Operand) (fs : Millivolts) :
    (voltRecord row v fs).rawCode = clampMv v fs := recorded_millivolt h _ _

/-- Settles O18: the clamp and the code are monotone, packing multiplies by a constant, and the record is one of the
two. -/
theorem conversionIsMonotone : Obligations.ConversionIsMonotone := by
  intro row fs v1 v2 hw hfs hv
  have hclamp := clampMv_mono fs hv
  have hcode := sentCode_mono row hfs hv
  refine ⟨hclamp, hcode, ?packed, ?record⟩
  case packed =>
    rw [pack_toNat hw (sentCode_le row v1 fs), pack_toNat hw (sentCode_le row v2 fs)]
    exact Nat.mul_le_mul_right _ hcode
  case record =>
    cases hkind : row.recKind with
    | scaled => simpa only [voltRecord_rawCode_scaled hkind] using hcode
    | millivolt => simpa only [voltRecord_rawCode_millivolt hkind] using hclamp

/-! ### Out-of-range requests (R152) -/

theorem sentCode_of_above (row : Row) {v : Operand} {fs : Millivolts} (hfs : 1 ≤ fs.toNat)
    (h : (fs.toNat : Int) < sint32 v) : sentCode row v fs = row.maxCode := by
  rw [sentCode, clampMv_of_above h, scale_fullScale _ hfs]

theorem sentCode_of_nonpos (row : Row) {v : Operand} {fs : Millivolts} (hfs : 1 ≤ fs.toNat) (h : sint32 v ≤ 0) :
    sentCode row v fs = 0 := by
  rw [sentCode, clampMv_of_nonpos fs h, scale_zero _ hfs]

/-- Settles O19: the clamped request is an end point of the scale, whose code is exact. -/
theorem outOfRangeRequestsSaturate : Obligations.OutOfRangeRequestsSaturate := by
  intro row fs v _ hfs
  refine ⟨fun habove => ?above, fun hbelow => ?below⟩
  case above =>
    have hcode := sentCode_of_above row hfs habove
    exact ⟨hcode, fun hkind => (voltRecord_rawCode_scaled hkind v fs).trans hcode,
      fun hkind => (voltRecord_rawCode_millivolt hkind v fs).trans (clampMv_of_above habove)⟩
  case below =>
    have hcode := sentCode_of_nonpos row hfs hbelow.le
    refine ⟨hcode, ?_⟩
    cases hkind : row.recKind with
    | scaled => exact (voltRecord_rawCode_scaled hkind v fs).trans hcode
    | millivolt => exact (voltRecord_rawCode_millivolt hkind v fs).trans (clampMv_of_nonpos fs hbelow.le)

/-! ### The round trip (R153) -/

/-- A quotient rounded to the nearest integer misses the dividend by at most half the divisor. -/
theorem abs_rounded_mul_sub_le (n : Nat) {f : Nat} (hf : 0 < f) :
    |(((n + f / 2) / f : Nat) : ℚ) * f - n| ≤ f / 2 := by
  have hlow := Nat.div_mul_le_self (n + f / 2) f
  have hhigh := Nat.lt_div_mul_add (a := n + f / 2) hf
  generalize (n + f / 2) / f = q at hlow hhigh ⊢
  have hlow2 : (2 * (q * f) : ℚ) ≤ 2 * n + f := by exact_mod_cast (by omega : 2 * (q * f) ≤ 2 * n + f)
  have hhigh2 : (2 * n : ℚ) ≤ 2 * (q * f) + f := by exact_mod_cast (by omega : 2 * n ≤ 2 * (q * f) + f)
  rw [abs_le]
  constructor <;> linarith

theorem Row.maxCode_pos {row : Row} (h : row.wf = true) : 0 < row.maxCode.toNat := by
  obtain ⟨hbits, -, hmax⟩ := Row.maxCode_eq h
  have hpow : 2 ^ 1 ≤ 2 ^ row.resBits := Nat.pow_le_pow_right (by decide) hbits
  omega

/-- Settles O20: both bounds are the rounding error of the code, `|code * fs - mvc * maxc| ≤ fs / 2`, divided by the
full scale and by the largest code. -/
theorem roundTripWithinHalfAStep : Obligations.RoundTripWithinHalfAStep := by
  intro row fs v hw hfs
  dsimp only
  have herr := abs_rounded_mul_sub_le ((clampMv v fs).toNat * row.maxCode.toNat) hfs
  rw [← sentCode_toNat row v hfs, Nat.cast_mul] at herr
  have hfull : (0 : ℚ) < fs.toNat := Nat.cast_pos.2 hfs
  have hmaxc : (0 : ℚ) < row.maxCode.toNat := Nat.cast_pos.2 (Row.maxCode_pos hw)
  constructor
  · rw [sub_div' hfull.ne', abs_div, abs_of_pos hfull, div_le_iff₀ hfull]
    linarith
  · rw [div_sub' hmaxc.ne', abs_div, abs_of_pos hmaxc, div_le_iff₀ hmaxc, ← div_div, div_mul_cancel₀ _ hmaxc.ne',
      mul_comm (row.maxCode.toNat : ℚ)]
    exact herr

end Sys2Proof.Machine
end

section
/-! SUPPORT. The statement of spec/40_readiness.md R121: BEGIN alone reads, and no step looks at the byte of an answer.
Every operation commutes with forgetting the bytes of the answers to come. -/

namespace Sys2Proof.Machine

/-! ### Only BEGIN reads -/

theorem allowedRequest_read {cfg : Cfg} {row : Row} {i : Instr} {r : Request} (h : allowedRequest cfg row i r)
    (hkind : kindField r.word = 1) : i = .begin := by
  cases i with
  | begin => rfl
  | setrange req =>
    obtain ⟨-, ⟨d, rfl⟩ | ⟨d, rfl⟩⟩ := h <;> simp [Request.word, kindField_requestWord] at hkind
  | setvolt ch v =>
    obtain ⟨-, ⟨d, rfl⟩ | ⟨d, rfl⟩⟩ := h <;> simp [Request.word, kindField_requestWord] at hkind
  | rdcode ch => exact h.elim
  | rdfs ch => exact h.elim

/-- A request that `exec` of a command issues is one that the command may issue. -/
theorem exec_allowedRequest {i : Instr} {s t : State} {w : RequestWord} (h : exec i s = .next t)
    (htreq : t.treq = s.treq ++ [w]) : ∃ row r, w = Request.word r ∧ allowedRequest s.cfg row i r := by
  rcases exec_cases h with ⟨-, rfl⟩ | ⟨row, hr, -⟩
  · simp at htreq
  · obtain ⟨u, hu, hutreq⟩ := exec_treq i hr
    obtain rfl : u = t := Host.Outcome.next.inj (hu.symm.trans h)
    rcases stepA_treq hr.row_wf i (takeWord s) with hsame | ⟨r, hissued, hallowed⟩
    · simp [hutreq, hsame] at htreq
    · exact ⟨row, r, by simpa [hutreq, hissued, eq_comm] using htreq, hallowed⟩

/-! ### No operation looks at a byte to come -/

@[simp] theorem forgetBytes_env (s : State) : s.forgetBytes.env = s.env.map EnvMove.forgetByte := rfl
@[simp] theorem forgetBytes_phase (s : State) : s.forgetBytes.phase = s.phase := rfl
@[simp] theorem forgetBytes_cfg (s : State) : s.forgetBytes.cfg = s.cfg := rfl
@[simp] theorem forgetBytes_cmdPort (s : State) : s.forgetBytes.cmdPort = s.cmdPort := rfl
@[simp] theorem forgetBytes_pend (s : State) : s.forgetBytes.pend = s.pend := rfl

theorem ofWord_forgetByte_ok (w : AnswerWord) : (Answer.ofWord (forgetByte w)).ok = (Answer.ofWord w).ok := by
  rw [forgetByte, ofWord_word]

theorem commit_forgetBytes (p : Pend) (s : State) : commit p s.forgetBytes = (commit p s).forgetBytes := by
  cases p <;> rfl

/-- Step B looks at the `OK` bit of its answer only. -/
theorem complete_forgetBytes (w : AnswerWord) (s : State) :
    complete (Answer.ofWord (forgetByte w)) s.forgetBytes = (complete (Answer.ofWord w) s).forgetBytes := by
  cases hok : (Answer.ofWord w).ok with
  | true =>
    rw [complete_of_ok hok, complete_of_ok ((ofWord_forgetByte_ok w).trans hok), forgetBytes_pend, commit_forgetBytes]
    rfl
  | false =>
    rw [complete_of_fail hok, complete_of_fail ((ofWord_forgetByte_ok w).trans hok)]
    rfl

theorem EnvMove.forgetByte_eq_answer {m : EnvMove} {w : AnswerWord} (h : m.forgetByte = .answer w) :
    ∃ w', m = .answer w' := by
  cases m with
  | answer w' => exact ⟨w', rfl⟩
  | present _ => cases h
  | lateAnswer _ => cases h
  | reset _ => cases h

theorem settle_forgetBytes (s : State) : settle s.forgetBytes = (settle s).forgetBytes := by
  cases hp : s.phase with
  | idle => rw [settle_of_idle hp, settle_of_idle (s := s.forgetBytes) hp]
  | wait =>
    by_cases hanswer : ∃ w rest, s.env = .answer w :: rest
    · obtain ⟨w, rest, he⟩ := hanswer
      rw [settle_of_answer hp he, settle_of_answer (s := s.forgetBytes) hp (congrArg (List.map EnvMove.forgetByte) he)]
      exact complete_forgetBytes w { s with env := rest }
    · have hnone : ∀ w rest, s.forgetBytes.env ≠ .answer w :: rest := fun w rest he => by
        obtain ⟨m, rest', he', hm, -⟩ := List.map_eq_cons_iff.1 he
        obtain ⟨w', rfl⟩ := EnvMove.forgetByte_eq_answer hm
        exact hanswer ⟨w', rest', he'⟩
      rw [settle_of_no_answer hnone, settle_of_no_answer fun w rest he => hanswer ⟨w, rest, he⟩]

theorem respondField_forgetBytes (field : Channel → BitVec 16) (ch : ChannelIndex) (row : Row) (s : State) :
    respondField field ch row s.forgetBytes = (respondField field ch row s).forgetBytes := by
  simp only [respondField, readChannel, State.forgetBytes]
  split
  · cases s.ch[ch.toNat]? <;> rfl
  · rfl

/-- Step A of a command does not look at the moves to come. -/
theorem stepA_forgetBytes (i : Instr) (row : Row) (s : State) :
    stepA i row s.forgetBytes = (stepA i row s).forgetBytes := by
  cases i with
  | begin => rfl
  | setrange req =>
    simp only [stepA, acceptSetrange]
    cases matchRange row req <;> rfl
  | setvolt ch v =>
    simp only [stepA, acceptSetvolt]
    cases channelOk row ch <;> rfl
  | rdcode ch => exact respondField_forgetBytes _ ch row s
  | rdfs ch => exact respondField_forgetBytes _ ch row s

theorem stepAWord_forgetBytes (w : CommandWord) (row : Row) (s : State) :
    stepAWord w row s.forgetBytes = (stepAWord w row s).forgetBytes := by
  unfold stepAWord
  cases decode w with
  | none => rfl
  | some i => exact stepA_forgetBytes i row s

theorem accept_forgetBytes (w : CommandWord) (s : State) :
    accept (stepAWord w) s.forgetBytes = mapNext State.forgetBytes (accept (stepAWord w) s) := by
  cases hp : s.phase with
  | wait => rw [accept_of_wait _ hp, accept_of_wait (s := s.forgetBytes) _ hp, mapNext]
  | idle =>
    cases hr : selectedRow s.cfg with
    | none => rw [accept_of_no_row _ hp hr, accept_of_no_row (s := s.forgetBytes) _ hp hr, mapNext]
    | some row =>
      rw [accept_ready _ ⟨hp, hr⟩, accept_ready (s := s.forgetBytes) _ ⟨hp, hr⟩, mapNext, ← settle_forgetBytes,
        ← stepAWord_forgetBytes]
      rfl

/-! ### Steps and runs -/

theorem envMove_forgetBytes (m : EnvMove) (s : State) :
    envMove m.forgetByte s.forgetBytes = mapNext State.forgetBytes (envMove m s) := by
  cases m with
  | present w =>
    simp only [EnvMove.forgetByte, envMove, presentWord, forgetBytes_cmdPort]
    cases s.cmdPort <;> rfl
  | answer w =>
    simp only [EnvMove.forgetByte, envMove, takeAnswer, forgetBytes_phase, mapNext]
    cases s.phase with
    | wait => exact congrArg Host.Outcome.next (complete_forgetBytes w s)
    | idle => rfl
  | lateAnswer w => rfl
  | reset st =>
    simp only [EnvMove.forgetByte, envMove, applyReset, forgetBytes_cfg]
    cases sampleStraps s.cfg.mt st <;> rfl

theorem envStep_forgetBytes (s : State) : envStep s.forgetBytes = mapNext State.forgetBytes (envStep s) := by
  simp only [envStep, forgetBytes_env]
  cases s.env with
  | nil => rfl
  | cons m rest => exact envMove_forgetBytes m { s with env := rest }

theorem step_forgetBytes (s : State) : step s.forgetBytes = mapNext State.forgetBytes (step s) := by
  cases hf : fetch s with
  | some w => rw [step_of_fetch hf, step_of_fetch (s := s.forgetBytes) hf, accept_forgetBytes]
  | none => rw [step_of_no_fetch hf, step_of_no_fetch (s := s.forgetBytes) hf, envStep_forgetBytes]

/-- Settles O54: what a command issues is allowed to it, a read to BEGIN alone; every step commutes with forgetting the
bytes, hence every run. -/
theorem answerBytesAreNeverUsed : Obligations.AnswerBytesAreNeverUsed := by
  refine ⟨fun i s t w h htreq hkind => ?onlyBegin, fun n => ?run⟩
  case onlyBegin =>
    obtain ⟨row, r, rfl, hallowed⟩ := exec_allowedRequest h htreq
    exact allowedRequest_read hallowed hkind
  case run =>
    induction n with
    | zero => exact fun s => rfl
    | succ n ih =>
      intro s
      have hstep := step_forgetBytes s
      rcases step_next_or_refused s with ⟨t, ht⟩ | ⟨r, hr⟩
      · rw [ht] at hstep
        rw [run_succ_next ht, run_succ_next hstep, ih t]
      · rw [hr] at hstep
        rw [run_succ_refused hr, run_succ_refused hstep]
        rfl

end Sys2Proof.Machine
end
